-- ==== Sys2Proof/Word.lean ====
section
/-! DEFINITION. The words of bitmap_to_frame_encoder: bytes, command words and their plainest arithmetic. -/

namespace Sys2Proof

/-- A byte, an unsigned integer in [0, 255] (00_scope.md R10). -/
abbrev Byte := BitVec 8

/-- The value of a geometry register or of a 32-bit operand field (10_state.md R22, R23, 30_encoding.md R80). -/
abbrev Word32 := BitVec 32

/-- One word of the command port, 80 bits (30_encoding.md R80). -/
abbrev CommandWord := BitVec 80

/-- `sum(x)`: the sum of a sequence's bytes as a natural number (00_scope.md R10). -/
def sumBytes (bytes : List Byte) : Nat := (bytes.map BitVec.toNat).sum

end Sys2Proof
end

