-- ==== Sys2Proof/Syntax.lean ====
section
/-! DEFINITION. The commands of the block: one constructor per row of spec/opcode_table.json (30_encoding.md R81). -/

namespace Sys2Proof

/-- A command with its operands as they stand in the word: all unsigned, no scaling (30_encoding.md R84).
The operand widths are the types, so a term outside the encoding cannot be written down. -/
inductive Instr where
  /-- `CONFIG address, columns, rows` (41_bitmap_store.md R116). -/
  | config (address : Byte) (columns rows : Word32)
  /-- `CLEAR` (41_bitmap_store.md R119). -/
  | clear
  /-- `FILL` (41_bitmap_store.md R121). -/
  | fill
  /-- `SETDOT column, row, lit` (41_bitmap_store.md R123). -/
  | setdot (column row : Word32) (lit : BitVec 1)
  /-- `BUILD` (42_bitmap_to_frame_encoder.md R135). -/
  | build
  /-- `SEND` (45_transport_send.md R203). -/
  | send
  /-- `ENCODE value` (40_ascii_hex_byte_encoder.md R101). -/
  | encode (value : Word32)
  deriving DecidableEq, Repr

end Sys2Proof
end

