-- ==== Sys2Proof/WellFormed.lean ====
section
/-! DEFINITION. Which command words are well formed: the match and mask table of 30_encoding.md R82.
A term of `Instr` is well formed by its types; what can be ill formed is a word on the port, and there is one
check per row of the table: the operation code, and zero in every field the command does not use. -/

namespace Sys2Proof

/-- One row of the selection table (30_encoding.md R82). -/
structure CommandRow where
  mnemonic : String
  matchBits : CommandWord
  maskBits : CommandWord
  deriving DecidableEq, Repr

/-- A word `w` is the row's command when `w & mask = match` (R82). -/
def CommandRow.selects (row : CommandRow) (w : CommandWord) : Bool :=
  w &&& row.maskBits == row.matchBits

/-- The row of `CONFIG` (R82). -/
def rowConfig : CommandRow := ⟨"CONFIG", 0x01000000000000000000, 0xFF000000000000000000⟩
/-- The row of `CLEAR` (R82). -/
def rowClear : CommandRow := ⟨"CLEAR", 0x02000000000000000000, 0xFFFFFFFFFFFFFFFFFFFF⟩
/-- The row of `FILL` (R82). -/
def rowFill : CommandRow := ⟨"FILL", 0x03000000000000000000, 0xFFFFFFFFFFFFFFFFFFFF⟩
/-- The row of `SETDOT` (R82). -/
def rowSetdot : CommandRow := ⟨"SETDOT", 0x04000000000000000000, 0xFFFE0000000000000000⟩
/-- The row of `BUILD` (R82). -/
def rowBuild : CommandRow := ⟨"BUILD", 0x05000000000000000000, 0xFFFFFFFFFFFFFFFFFFFF⟩
/-- The row of `SEND` (R82). -/
def rowSend : CommandRow := ⟨"SEND", 0x06000000000000000000, 0xFFFFFFFFFFFFFFFFFFFF⟩
/-- The row of `ENCODE` (R82). -/
def rowEncode : CommandRow := ⟨"ENCODE", 0x07000000000000000000, 0xFFFF00000000FFFFFFFF⟩

/-- All rows of the selection table, in the table's order (R82). -/
def commandRows : List CommandRow :=
  [rowConfig, rowClear, rowFill, rowSetdot, rowBuild, rowSend, rowEncode]

/-- The word matches some row; every other word is illegal (30_encoding.md R83). -/
def legalWord (w : CommandWord) : Bool := commandRows.any (fun row => row.selects w)

/-- The row an instruction belongs to (R81, R82). -/
def Instr.row : Instr → CommandRow
  | .config _ _ _ => rowConfig
  | .clear => rowClear
  | .fill => rowFill
  | .setdot _ _ _ => rowSetdot
  | .build => rowBuild
  | .send => rowSend
  | .encode _ => rowEncode

end Sys2Proof
end

