-- ==== Sys2Proof/Decode.lean ====
section
/-! DEFINITION. The command decoder, total on 80-bit words and rejecting by name, and the encoder (30_encoding.md Part B).
There is a single command length (R85) and the port takes a whole word, so no byte order enters. -/

namespace Sys2Proof

/-- Why a word is no command (30_encoding.md R83). -/
inductive Reject where
  /-- `op` is 0x00 or 0x08 to 0xFF. -/
  | unknownOperation (op : Byte)
  /-- A legal `op` with a non-zero bit in a field the command does not use. -/
  | unusedFieldNotZero (op : Byte)
  deriving DecidableEq, Repr

/-- Field `op`, bits 79:72 (R80). -/
def opField (w : CommandWord) : Byte := w.extractLsb' 72 8
/-- Field `imm8`, bits 71:64 (R80). -/
def imm8Field (w : CommandWord) : Byte := w.extractLsb' 64 8
/-- Field `a`, bits 63:32 (R80). -/
def aField (w : CommandWord) : Word32 := w.extractLsb' 32 32
/-- Field `b`, bits 31:0 (R80). -/
def bField (w : CommandWord) : Word32 := w.extractLsb' 0 32

/-- `lit = imm8[0]` (R84). -/
def litField (w : CommandWord) : BitVec 1 := (imm8Field w).extractLsb' 0 1
/-- Bits 71:65, which `SETDOT` does not use (R80). -/
def setdotUnused (w : CommandWord) : BitVec 7 := (imm8Field w).extractLsb' 1 7

/-- Accept the command if its unused fields are zero (R82, R83). -/
def ifZero (unusedIsZero : Bool) (op : Byte) (i : Instr) : Except Reject Instr :=
  if unusedIsZero then .ok i else .error (.unusedFieldNotZero op)

/-- The command a word stands for (R81, R82, R84), or why it stands for none (R83). -/
def decode (w : CommandWord) : Except Reject Instr :=
  if opField w = 0x01 then .ok (.config (imm8Field w) (aField w) (bField w))
  else if opField w = 0x02 then
    ifZero (imm8Field w == 0 && aField w == 0 && bField w == 0) 0x02 .clear
  else if opField w = 0x03 then
    ifZero (imm8Field w == 0 && aField w == 0 && bField w == 0) 0x03 .fill
  else if opField w = 0x04 then
    ifZero (setdotUnused w == 0) 0x04 (.setdot (aField w) (bField w) (litField w))
  else if opField w = 0x05 then
    ifZero (imm8Field w == 0 && aField w == 0 && bField w == 0) 0x05 .build
  else if opField w = 0x06 then
    ifZero (imm8Field w == 0 && aField w == 0 && bField w == 0) 0x06 .send
  else if opField w = 0x07 then
    ifZero (imm8Field w == 0 && bField w == 0) 0x07 (.encode (aField w))
  else .error (.unknownOperation (opField w))

/-- The word with the four fields `{op, imm8, a, b}` (R80). -/
def packWord (op imm8 : Byte) (a b : Word32) : CommandWord := op ++ imm8 ++ a ++ b

/-- The word of a command: its operands in the fields of R80, zero in the fields it does not use (R82). -/
def encode : Instr → CommandWord
  | .config address columns rows => packWord 0x01 address columns rows
  | .clear => packWord 0x02 0 0 0
  | .fill => packWord 0x03 0 0 0
  | .setdot column row lit => packWord 0x04 (lit.setWidth 8) column row
  | .build => packWord 0x05 0 0 0
  | .send => packWord 0x06 0 0 0
  | .encode value => packWord 0x07 0 value 0

/-- The decoder on a word given as a number of `nbits` bits, numbered as spec/opcode_table.json numbers them
(bit 0 the least significant bit of the 80-bit word); bits above `nbits` are zero. No command is longer than 80 bits (R85). -/
def decodeTableWord (nbits w : Nat) : Option Instr :=
  if nbits ≤ 80 then (decode (BitVec.ofNat 80 (w % 2 ^ nbits))).toOption else none

end Sys2Proof
end

