-- ==== Sys2Proof/Config.lean ====
section
/-! DEFINITION. The implementation parameters of 00_scope.md R5 under the spec's names, as R6 asks.
A value here is the spec's; a parameter the spec leaves OPEN is a constant with no body. -/

namespace Sys2Proof

/-- First header byte, "start-of-transmission marker" (R5; UNVERIFIED against a display, log entry 16). -/
abbrev Config.STX : Byte := 0x02

/-- Second header byte, "fixed frame-type marker" (R5; UNVERIFIED, log entry 16). -/
abbrev Config.FTYPE : Byte := 0x31

/-- "ASCII offset" added to the address (R5; UNVERIFIED, log entry 16). -/
abbrev Config.ADDR_BASE : Nat := 0x30

/-- First footer byte, "end-of-transmission marker" (R5; UNVERIFIED, log entry 16). -/
abbrev Config.ETX : Byte := 0x03

/-- "fixed initial bias" of the checksum (R5; UNVERIFIED, log entry 16). -/
abbrev Config.CSUM_BIAS : Nat := 1

/-- Largest value the byte encoder accepts (R5, R102). -/
abbrev Config.ENC_MAX : Nat := 255

/-- The multiple ROWS is rounded up to (R5, R127). -/
abbrev Config.ROW_ALIGN : Nat := 8

/-- Largest value the 32-bit ROWS register holds (R5 `GEOM_W`, R117 (a)). -/
abbrev Config.GEOM_MAX : Nat := 0xFFFFFFFF

/-- The least capacity R5 allows: "OPEN, at least 2040". -/
abbrev Config.CAP_MIN : Nat := 2040

/-- How many cells more than 2040 the bitmap memory holds; the spec leaves it open (R5, D7; log entry 7). -/
opaque Config.capExtra : Nat

/-- `CAP_CELLS`, the number of cells the bitmap memory can hold (R5): any number of at least 2040. -/
abbrev Config.CAP_CELLS : Nat := Config.CAP_MIN + Config.capExtra

/-- Serial line rate (R5, 45_transport_send.md R213). No rule of the block depends on it. -/
abbrev Config.BAUD : Nat := 4800

/-- Data bits per character on the line (R5, R213). No rule of the block depends on it. -/
abbrev Config.DATA_BITS : Nat := 8

/-- Least time between the build of a frame in SEND and its write, OPEN (R5, R208). The model carries no time: nothing reads it (log entry 8). -/
opaque Config.SEND_DELAY : Nat

/-- Parity of the serial line, OPEN (R5, R213). No rule of the block depends on it. -/
opaque Config.PARITY : Nat

/-- Stop bits of the serial line, OPEN (R5, R213). No rule of the block depends on it. -/
opaque Config.STOP_BITS : Nat

/-- Bit order of the serial line, OPEN (R5, R213): which bit of a byte the line carries `i`-th, bit 0 the least
significant. No rule of the block depends on it (log entry 24). -/
opaque Config.LINE_BIT_ORDER : Fin 8 → Fin 8

end Sys2Proof
end

