-- ==== Sys2Proof/Machine/State.lean ====
section
/-! DEFINITION. The state of one block instance (10_state.md R20), the steps the environment offers it, the
responses it gives, the reasons a step can stop, and the state after reset (10_state.md R41). -/

namespace Sys2Proof.Machine

/-- The status of a command (60_exceptions.md R226). -/
inductive Status where
  | ok
  | invalidArgument
  | indexOutOfRange
  | transportUnavailable
  | illegalCommand
  | notConfigured
  | busy
  deriving DecidableEq, Repr

/-- The response to a command: a status and a payload (30_encoding.md R86). -/
structure Response where
  status : Status
  payload : List Byte
  deriving DecidableEq, Repr

/-- `TSTATE`, the state of the transport (10_state.md R30). -/
inductive TState where
  | closed
  | opening
  | ready
  deriving DecidableEq, Repr

/-- `PHASE`, the segment a byte-level build is in (10_state.md R36). -/
inductive Phase where
  | idle
  | hdr
  | body
  | ftr
  deriving DecidableEq, Repr

/-- The command a byte-level build serves; it says where the finished frame goes (44_serial_frame_packer.md R175). -/
inductive BuildOwner where
  | build
  | send
  deriving DecidableEq, Repr

/-- The transient state of a build: `ACC` of the checksum accumulator (10_state.md R35), the packer's registers
(R36), and what 44_serial_frame_packer.md holds inside one build without a register's name (log entry 13). -/
structure Packer where
  /-- `ACC` -/
  acc : BitVec 16
  /-- `PHASE` -/
  phase : Phase
  /-- `POS` -/
  pos : BitVec 10
  /-- `SHREG` -/
  shreg : Byte
  /-- `BITCNT` -/
  bitcnt : BitVec 4
  /-- `F`, the bytes emitted by the build so far (R175) -/
  out : List Byte
  /-- `S`, held from the first footer step on (R182) -/
  masked : Byte
  /-- `K`, held from the first footer step on (R182) -/
  check : Byte
  /-- the command that started the build -/
  owner : BuildOwner
  deriving DecidableEq, Repr

/-- The steps of the transport and of the delay timer, `@open`, `@ready`, `@close`, `@fire` (30_encoding.md R87). -/
inductive Event where
  | atOpen
  | atReady
  | atClose
  | atFire
  deriving DecidableEq, Repr

/-- What the environment offers as the next step of a run (00_scope.md R8, 60_exceptions.md R237; log entry 2). -/
inductive Input where
  /-- The host presents a word; the command is one atomic transition (00_scope.md R7). -/
  | command (w : CommandWord)
  /-- The host presents a word; a build it asks for runs byte by byte (44_serial_frame_packer.md R175; log entry 14). -/
  | serialCommand (w : CommandWord)
  /-- A step of the transport or of the timer. -/
  | event (e : Event)
  /-- The packer takes one step, before the events that follow in the list (44_serial_frame_packer.md R189). -/
  | byteStep
  deriving DecidableEq, Repr

/-- One listed cell of the bitmap: its flat index and its bit, 1 lit (20_memory.md R50, R52). -/
abbrev Cell := Nat × BitVec 1

/-- The bitmap's contents: the cells that are not unlit, by strictly rising flat index (log entry 22). -/
abbrev Memory := List Cell

/-- The whole state of one block instance (10_state.md R20), and the model's own `responses` and `inputs`. -/
structure State where
  /-- `CONFIGURED` (R28) -/
  configured : Bool
  /-- `ADDRESS` (R21) -/
  address : Byte
  /-- `COLUMNS` (R22) -/
  columns : Word32
  /-- `ROWS`, the rounded row count (R23) -/
  rows : Word32
  /-- `BM` (R31) -/
  bm : Memory
  /-- `TSTATE` (R30) -/
  tstate : TState
  /-- `PENDING` (R33) -/
  pending : Option (List Byte)
  /-- `TXLOG` (R34) -/
  txlog : List Byte
  /-- `ACC`, `PHASE`, `POS`, `SHREG`, `BITCNT` and the values of a build in progress (R35, R36) -/
  packer : Packer
  /-- The responses the host has received, oldest first (00_scope.md R9; log entry 1). -/
  responses : List Response
  /-- The steps the environment will take, next first (log entry 2). -/
  inputs : List Input
  deriving DecidableEq, Repr

/-- Why the machine stops. None of these is raised by a command: a failing command answers a status
(60_exceptions.md R225). -/
inductive Fault where
  /-- The environment offers a step the spec says is not enabled in this state (45_transport_send.md R201, R207).
  Raised by the event steps. Safe: the run is none of the spec's (log entry 4). -/
  | eventNotEnabled (e : Event)
  /-- A packer step is offered while no build is in progress (44_serial_frame_packer.md R176).
  Raised by the step. Safe (log entry 4). -/
  | packerStepNotEnabled
  /-- The packer stands at a position none of R178 to R182 covers. Raised by the packer's step, never in a
  state a run reaches. Safe (log entry 15). -/
  | packerPositionOutOfRange
  deriving DecidableEq, Repr

/-- Why the model gives a step no meaning. -/
inductive Refusal where
  /-- The instruction of this mnemonic has no meaning yet. Raised by exec only. Safe. -/
  | notModelled (mnemonic : String)
  /-- The transport closes while a frame is pending: "A model should refuse such a run"
  (45_transport_send.md R209). Raised by the `@close` step. Safe (log entry 5). -/
  | closeWhilePending
  deriving DecidableEq, Repr

/-- The outcome of a step of this machine. -/
abbrev Result := Host.Outcome State Fault Refusal

/-- The transient state after reset: `PHASE = IDLE` (10_state.md R41). DESIGN CHOICE: the rest, which the spec
leaves unspecified and unread, is zero (log entry 11). -/
def Packer.reset : Packer where
  acc := 0
  phase := .idle
  pos := 0
  shreg := 0
  bitcnt := 0
  out := []
  masked := 0
  check := 0
  owner := .build

/-- The block right after reset (10_state.md R41, 70_reset_and_hazards.md R255). DESIGN CHOICE: the geometry
registers, unspecified and unreadable until CONFIG, are zero (log entry 9), and no cell is listed (log entry 10). -/
def State.reset : State where
  configured := false
  address := 0
  columns := 0
  rows := 0
  bm := []
  tstate := .closed
  pending := none
  txlog := []
  packer := Packer.reset
  responses := []
  inputs := []

end Sys2Proof.Machine
end

