-- ==== Sys2Proof/Machine/Ops.lean ====
section
/-! DEFINITION. The named operations over the bitmap, the registers, the response port and the environment's list.
Every read and write of State goes through them. -/

namespace Sys2Proof.Machine

/-! ## The bitmap as memory (20_memory.md) -/

/-- The bit of one cell. An unlisted cell is unlit: CONFIG creates the bitmap "with all cells unlit" (R116; log entry 10). -/
def Memory.read : Memory → Nat → BitVec 1
  | [], _ => 0
  | (j, v) :: m, i => if j = i then v else Memory.read m i

/-- Set one cell, keeping the canonical form. -/
def Memory.write : Memory → Nat → BitVec 1 → Memory
  | [], i, v => if v = 0 then [] else [(i, v)]
  | (j, u) :: m, i, v =>
    if i < j then (if v = 0 then (j, u) :: m else (i, v) :: (j, u) :: m)
    else if i = j then (if v = 0 then m else (i, v) :: m)
    else (j, u) :: Memory.write m i v

/-- The canonical form: flat indices strictly rising, and no entry equal to what an unlisted cell reads as. -/
def Memory.wf : Memory → Bool
  | [] => true
  | (j, v) :: m => v != 0 && m.all (fun c => decide (j < c.1)) && Memory.wf m

/-- The sequence of `n` cells, every cell `v` (R116, R119, R121). -/
def Memory.replicate (n : Nat) (v : BitVec 1) : Memory :=
  if v = 0 then [] else (List.range n).map (fun i => (i, v))

/-- `MemRead(addr, n)`: the `n`-bit value whose bit `j` is cell `addr + j` (R55). -/
def Memory.memRead (m : Memory) (addr n : Nat) : Nat :=
  ((List.range n).map (fun j => (m.read (addr + j)).toNat * 2 ^ j)).sum

/-- `MemWrite(addr, n, v)`: bit `j` of `v` to cell `addr + j` for each `j < n` (R56). -/
def Memory.memWrite (m : Memory) (addr n v : Nat) : Memory :=
  (List.range n).foldl (fun m j => m.write (addr + j) (BitVec.ofBool (v.testBit j))) m

/-! ## The response port (30_encoding.md R86, 60_exceptions.md) -/

/-- The numeric code of a status, 3 bits (R226). -/
def Status.code : Status → BitVec 3
  | .ok => 0
  | .invalidArgument => 1
  | .indexOutOfRange => 2
  | .transportUnavailable => 3
  | .illegalCommand => 4
  | .notConfigured => 5
  | .busy => 6

/-- End the command with a status and a payload. -/
def State.respond (s : State) (status : Status) (payload : List Byte) : State :=
  { s with responses := s.responses ++ [⟨status, payload⟩] }

/-- `return` with no payload: the command ends with status `Ok` (00_scope.md R11). -/
def State.done (s : State) : State := s.respond .ok []

/-- `raise <Status>`, the block's only exceptional outcome: the response is the status code alone, and every
piece of state stays exactly as it was (60_exceptions.md R225, R227, R232). Nothing is saved and there is no
return from it (R234, R238). -/
def State.raise (s : State) (status : Status) : State := s.respond status []

/-! ## Registers (10_state.md) -/

/-- The writes of a successful `CONFIG` (41_bitmap_store.md R116). -/
def State.construct (s : State) (address : Byte) (columns rows : Word32) : State :=
  { s with
    address := address
    columns := columns
    rows := rows
    bm := Memory.replicate (columns.toNat * rows.toNat) 0
    configured := true }

/-- Write the bitmap. -/
def State.writeBm (s : State) (bm : Memory) : State := { s with bm := bm }

/-- Write `TSTATE`; the transport's steps only (10_state.md R29). -/
def State.writeTState (s : State) (t : TState) : State := { s with tstate := t }

/-- Write `PENDING`. -/
def State.writePending (s : State) (p : Option (List Byte)) : State := { s with pending := p }

/-- Hand bytes to the transport sink: `TXLOG <- TXLOG ++ f` (10_state.md R34). -/
def State.transmit (s : State) (f : List Byte) : State := { s with txlog := s.txlog ++ f }

/-- Write the transient state of a build. -/
def State.writePacker (s : State) (p : Packer) : State := { s with packer := p }

/-- What the environment has left to offer. -/
def State.writeInputs (s : State) (inputs : List Input) : State := { s with inputs := inputs }

/-- The status a word that matches no command gets (60_exceptions.md R230). -/
def illegalCommand (s : State) : Result := .next (s.raise .illegalCommand)

end Sys2Proof.Machine
end

