-- ==== Sys2Proof/Machine/Operands.lean ====
section
/-! DEFINITION. What the commands compute from their operands and from the geometry registers, over the natural
numbers and without wrap-around (00_scope.md R10, 42_bitmap_to_frame_encoder.md R150). -/

namespace Sys2Proof.Machine

/-- `round8(r) = 8 * ((r + 7) div 8)` (41_bitmap_store.md R127). -/
def round8 (r : Nat) : Nat := Config.ROW_ALIGN * ((r + (Config.ROW_ALIGN - 1)) / Config.ROW_ALIGN)

/-- The number of cells of a geometry, `columns * rows` (10_state.md R31). -/
def cellCount (columns rows : Word32) : Nat := columns.toNat * rows.toNat

/-- The flat index of cell `(column, row)`, `column * x[ROWS] + row` (20_memory.md R51). -/
def flatIndex (rows column row : Word32) : Nat := column.toNat * rows.toNat + row.toNat

/-- The packed count `N = (rows * columns) div 8` (42_bitmap_to_frame_encoder.md R136). -/
def packedCount (columns rows : Word32) : Nat := (rows.toNat * columns.toNat) / 8

/-- Packed byte `k`, `MemRead(8 * k, 8)` (42_bitmap_to_frame_encoder.md R138). -/
def packedByte (m : Memory) (k : Nat) : Byte := BitVec.ofNat 8 (m.memRead (8 * k) 8)

end Sys2Proof.Machine
end

