-- ==== Sys2Proof/Machine/Flags.lean ====
section
/-! DEFINITION. The conditions a command tests. The block has no condition codes and no status register
(10_state.md R27); its one flag is `CONFIGURED` (R28), and the tests of 60_exceptions.md R233 read it, `TSTATE`,
`PENDING`, the geometry and the capacity. -/

namespace Sys2Proof.Machine

/-- Some frame is built by SEND and not yet written (10_state.md R33). -/
def State.hasPending (s : State) : Bool := s.pending.isSome

/-- The two conditions of `@fire` a model without time keeps: a frame is pending and the transport is ready
(45_transport_send.md R207, R208). -/
def State.fireEnabled (s : State) : Bool := s.hasPending && decide (s.tstate = .ready)

/-- Both coordinates are in bounds, each checked by itself (20_memory.md R60, 41_bitmap_store.md R124). -/
def State.inBounds (s : State) (column row : Word32) : Bool :=
  decide (column.toNat < s.columns.toNat) && decide (row.toNat < s.rows.toNat)

/-- A number of cells the bitmap memory can hold, `n <= CAP_CELLS` (41_bitmap_store.md R117 (b)). The first test
follows from the second, since `CAP_CELLS` is at least 2040; it lets a geometry that can yield a frame be evaluated
without the open value. -/
def fitsCapacity (n : Nat) : Bool := decide (n ≤ Config.CAP_MIN) || decide (n ≤ Config.CAP_CELLS)

/-- The rounded row count fits the 32-bit `ROWS` register (41_bitmap_store.md R117 (a)). -/
def fitsRows (n : Nat) : Bool := decide (n ≤ Config.GEOM_MAX)

end Sys2Proof.Machine
end

