-- ==== Sys2Proof/Machine/Bitmap.lean ====
section
/-! DEFINITION. The bitmap store's commands CONFIG, CLEAR, FILL and SETDOT (41_bitmap_store.md). -/

namespace Sys2Proof.Machine

/-- `CONFIG address, columns, rows` (R116, R117). It reads no state. -/
def execConfig (address : Byte) (columns rowsReq : Word32) (s : State) : Result :=
  if fitsRows (round8 rowsReq.toNat) = false then .next (s.raise .invalidArgument)
  else if fitsCapacity (columns.toNat * round8 rowsReq.toNat) = false then
    .next (s.raise .invalidArgument)
  else .next (s.construct address columns (BitVec.ofNat 32 (round8 rowsReq.toNat))).done

/-- Write every cell of the bitmap, the rows added by rounding included (R119, R121). -/
def State.paint (s : State) (v : BitVec 1) : State :=
  s.writeBm (Memory.replicate (cellCount s.columns s.rows) v)

/-- `CLEAR` (R119). -/
def execClear (s : State) : Result :=
  if s.configured = false then .next (s.raise .notConfigured) else .next (s.paint 0).done

/-- `FILL` (R121). -/
def execFill (s : State) : Result :=
  if s.configured = false then .next (s.raise .notConfigured) else .next (s.paint 1).done

/-- `SETDOT column, row, lit` (R123, R124). -/
def execSetdot (column row : Word32) (lit : BitVec 1) (s : State) : Result :=
  if s.configured = false then .next (s.raise .notConfigured)
  else if s.inBounds column row = false then .next (s.raise .indexOutOfRange)
  else .next (s.writeBm (s.bm.memWrite (flatIndex s.rows column row) 1 lit.toNat)).done

end Sys2Proof.Machine
end

