-- ==== Sys2Proof/Machine/Encoder.lean ====
section
/-! DEFINITION. The ascii_hex_byte_encoder (AHE) and the ENCODE command (40_ascii_hex_byte_encoder.md). -/

namespace Sys2Proof.Machine

/-- The character of a hexadecimal digit: `0x30 + d` for `d <= 9` and `0x37 + d` above (30_encoding.md R77;
PRESUMED in the spec itself, its entry G1, log entry 17). -/
def hexchar (d : BitVec 4) : Byte :=
  if d.toNat ≤ 9 then BitVec.ofNat 8 (0x30 + d.toNat) else BitVec.ofNat 8 (0x37 + d.toNat)

/-- The AHE proper, combinational, 8 bits in and two characters out: the high nibble's first (R100, R103). -/
def ahe (v : Byte) : Byte × Byte := (hexchar (v.extractLsb' 4 4), hexchar (v.extractLsb' 0 4))

/-- The two characters of a byte as a sequence, high character first (20_memory.md R57). -/
def aheBytes (v : Byte) : List Byte := [(ahe v).1, (ahe v).2]

/-- `enc(v)`; `none` is the failure `InvalidArgument` outside [0, 255]. The check is made on the full-width
value before its low 8 bits go to the AHE (R102, R103). -/
def enc (v : Nat) : Option (Byte × Byte) :=
  if v ≤ Config.ENC_MAX then some (ahe (BitVec.ofNat 8 v)) else none

/-- `ENCODE value` (R101): reads no state, not even `CONFIGURED`. -/
def execEncode (value : Word32) (s : State) : Result :=
  match enc value.toNat with
  | none => .next (s.raise .invalidArgument)
  | some (high, low) => .next (s.respond .ok [high, low])

end Sys2Proof.Machine
end

