-- ==== Sys2Proof/Machine/Checksum.lean ====
section
/-! DEFINITION. The checksum_accumulator (CSA): its operations init, add and finish (43_checksum_accumulator.md). -/

namespace Sys2Proof.Machine

/-- `init`: `ACC <- 1` (R161). -/
def csaInit : BitVec 16 := BitVec.ofNat 16 Config.CSUM_BIAS

/-- `add(b)`: `ACC <- ACC + b`, in 16 bits (R162). -/
def csaAdd (acc : BitVec 16) (b : Byte) : BitVec 16 := acc + b.setWidth 16

/-- The masked sum `S = ACC[7:0]` (R163). -/
def csaMasked (acc : BitVec 16) : Byte := acc.extractLsb' 0 8

/-- The check value `K = ((S ^ 0xFF) + 1) mod 256` (R164). -/
def checkValue (masked : Byte) : Byte := (masked ^^^ 0xFF) + 1

/-- The masked sum of the bytes of header and body with the bias added, as natural numbers (42_bitmap_to_frame_encoder.md
R145). That the body's characters and not the packed bytes are summed is R162's reading (UNVERIFIED, log entry 18). -/
def maskedSum (bytes : List Byte) : Byte := BitVec.ofNat 8 ((sumBytes bytes + Config.CSUM_BIAS) % 256)

end Sys2Proof.Machine
end

