-- ==== Sys2Proof/Machine/Frame.lean ====
section
/-! DEFINITION. The bitmap_to_frame_encoder's frame function and the BUILD command (42_bitmap_to_frame_encoder.md). -/

namespace Sys2Proof.Machine

/-- The header `[0x02, 0x31, address + 0x30, lh, ll]` (R137); `none` is `InvalidArgument`, for a packed count above
255 (R136) or an address byte above 255 (R137). -/
def headerBytes (address : Byte) (n : Nat) : Option (List Byte) :=
  match enc n with
  | none => none
  | some (high, low) =>
    if address.toNat + Config.ADDR_BASE > 255 then none
    else some [Config.STX, Config.FTYPE, BitVec.ofNat 8 (address.toNat + Config.ADDR_BASE), high, low]

/-- The body `enc(P_0) ++ ... ++ enc(P_(n-1))` (R139). -/
def bodyBytes (bm : Memory) (n : Nat) : List Byte :=
  (List.range n).flatMap (fun k => aheBytes (packedByte bm k))

/-- The footer `[0x03, ch, cl]` for the bytes of header and body (R141, R145). -/
def footerBytes (headAndBody : List Byte) : List Byte :=
  Config.ETX :: aheBytes (checkValue (maskedSum headAndBody))

/-- `frame(address, columns, rows, bm)` (R145); `none` is `InvalidArgument`. Both range checks come before the first
byte (R147). -/
def frame (address : Byte) (columns rows : Word32) (bm : Memory) : Option (List Byte) :=
  match headerBytes address (packedCount columns rows) with
  | none => none
  | some header =>
    let headAndBody := header ++ bodyBytes bm (packedCount columns rows)
    some (headAndBody ++ footerBytes headAndBody)

/-- The frame of the current state. -/
def State.frame (s : State) : Option (List Byte) := Machine.frame s.address s.columns s.rows s.bm

/-- `BUILD` (R135): it writes no state (R149). -/
def execBuild (s : State) : Result :=
  if s.configured = false then .next (s.raise .notConfigured)
  else match s.frame with
    | none => .next (s.raise .invalidArgument)
    | some f => .next (s.respond .ok f)

end Sys2Proof.Machine
end

