-- ==== Sys2Proof/Machine/Transport.lean ====
section
/-! DEFINITION. The SEND command, the transport's steps and the delayed write (45_transport_send.md). -/

namespace Sys2Proof.Machine

/-- `SEND` (R203): build the frame of the current state and hold it in `PENDING` (20_memory.md R67). The checks are
made in the order of 60_exceptions.md R233. -/
def execSend (s : State) : Result :=
  if s.configured = false then .next (s.raise .notConfigured)
  else if s.tstate ≠ .ready then .next (s.raise .transportUnavailable)
  else if s.hasPending then .next (s.raise .busy)
  else match s.frame with
    | none => .next (s.raise .invalidArgument)
    | some f => .next (s.writePending (some f)).done

/-- `@open`: enabled in `Closed` (R201). -/
def stepOpen (s : State) : Result :=
  match s.tstate with
  | .closed => .next (s.writeTState .opening)
  | .opening => .fault (.eventNotEnabled .atOpen)
  | .ready => .fault (.eventNotEnabled .atOpen)

/-- `@ready`: enabled in `Opening` (R201). -/
def stepReady (s : State) : Result :=
  match s.tstate with
  | .opening => .next (s.writeTState .ready)
  | .closed => .fault (.eventNotEnabled .atReady)
  | .ready => .fault (.eventNotEnabled .atReady)

/-- `@close`: enabled in `Opening` and `Ready` (R201). While a frame is pending "a model should refuse such a run"
(R209). It may come during a byte-level build, of a SEND too, and reads none of the build's state
(44_serial_frame_packer.md R189; log entry 6). -/
def stepClose (s : State) : Result :=
  match s.tstate with
  | .closed => .fault (.eventNotEnabled .atClose)
  | .opening =>
    if s.hasPending then .refused .closeWhilePending
    else .next (s.writeTState .closed)
  | .ready =>
    if s.hasPending then .refused .closeWhilePending
    else .next (s.writeTState .closed)

/-- `@fire`, the delayed write: enabled while a frame is pending and the transport is ready; the whole frame is
appended in one step (R207). The delay is a side condition a model leaves out (R208, log entry 8). -/
def stepFire (s : State) : Result :=
  match s.pending, s.tstate with
  | some f, .ready => .next ((s.transmit f).writePending none)
  | some _, .closed => .fault (.eventNotEnabled .atFire)
  | some _, .opening => .fault (.eventNotEnabled .atFire)
  | none, _ => .fault (.eventNotEnabled .atFire)

/-- One step of the transport or of the timer. -/
def stepEvent (e : Event) (s : State) : Result :=
  match e with
  | .atOpen => stepOpen s
  | .atReady => stepReady s
  | .atClose => stepClose s
  | .atFire => stepFire s

end Sys2Proof.Machine
end

