-- ==== Sys2Proof/Machine/Dispatch.lean ====
section
/-! DEFINITION. One arm per command: each calls its meaning (30_encoding.md R81). -/

namespace Sys2Proof.Machine

def exec (i : Instr) (s : State) : Host.Outcome State Fault Refusal :=
  match i with
  | .config address columns rows => Sys2Proof.Machine.execConfig address columns rows s
  | .clear => Sys2Proof.Machine.execClear s
  | .fill => Sys2Proof.Machine.execFill s
  | .setdot column row lit => Sys2Proof.Machine.execSetdot column row lit s
  | .build => Sys2Proof.Machine.execBuild s
  | .send => Sys2Proof.Machine.execSend s
  | .encode value => Sys2Proof.Machine.execEncode value s

end Sys2Proof.Machine
end

