-- ==== Sys2Proof/Machine/SerialPacker.lean ====
section
/-! DEFINITION. The serial_frame_packer (SFP), the byte-by-byte build (44_serial_frame_packer.md): the start of a
build, one step in each phase, and the end of a build. -/

namespace Sys2Proof.Machine

/-- The packed count of the current geometry. -/
def State.packedCount (s : State) : Nat := Machine.packedCount s.columns s.rows

/-- The start of a build (R177). -/
def startBuild (owner : BuildOwner) (s : State) : State :=
  s.writePacker { s.packer with
    out := []
    acc := csaInit
    shreg := 0
    bitcnt := 0
    pos := 0
    phase := .hdr
    owner := owner }

/-- `BUILD` at the byte level: the command's check, the two range checks, and then the start; if a check fails the
build does not start (R177). -/
def beginBuild (s : State) : Result :=
  if s.configured = false then .next (s.raise .notConfigured)
  else match headerBytes s.address s.packedCount with
    | none => .next (s.raise .invalidArgument)
    | some _ => .next (startBuild .build s)

/-- `SEND` at the byte level: its checks in the order of 60_exceptions.md R233, and then the start (R177). -/
def beginSend (s : State) : Result :=
  if s.configured = false then .next (s.raise .notConfigured)
  else if s.tstate ≠ .ready then .next (s.raise .transportUnavailable)
  else if s.hasPending then .next (s.raise .busy)
  else match headerBytes s.address s.packedCount with
    | none => .next (s.raise .invalidArgument)
    | some _ => .next (startBuild .send s)

/-- `emit(b)`: append a byte to `F` (R175). -/
def Packer.emit (p : Packer) (b : Byte) : Packer := { p with out := p.out ++ [b] }

/-- `emit(b)` and the accumulator's `add(b)`. -/
def Packer.emitSummed (p : Packer) (b : Byte) : Packer := { p.emit b with acc := csaAdd p.acc b }

/-- Take one more cell into `SHREG` at bit `BITCNT` (R181). -/
def Packer.shiftIn (p : Packer) (cell : BitVec 1) : Packer :=
  { p with
    shreg := p.shreg ||| (cell.setWidth 8 <<< p.bitcnt.toNat)
    bitcnt := p.bitcnt + 1 }

/-- Gather packed byte `k`, the first cell visited at bit 0 (R181). -/
def Packer.gather (p : Packer) (bm : Memory) (k : Nat) : Packer :=
  (List.range 8).foldl (fun q j => q.shiftIn (bm.read (8 * k + j))) { p with shreg := 0, bitcnt := 0 }

/-- The packer after a header step at position `pos` (R178). -/
def Packer.afterHeader (p : Packer) (n : Nat) : Packer :=
  if p.pos.toNat < 4 then { p with pos := p.pos + 1 }
  else { p with pos := 0, phase := if n = 0 then .ftr else .body }

/-- A step in `HDR` (R178). -/
def stepHeader (s : State) : Result :=
  match headerBytes s.address s.packedCount with
  | none => .fault .packerPositionOutOfRange
  | some header =>
    match header[s.packer.pos.toNat]? with
    | none => .fault .packerPositionOutOfRange
    | some b => .next (s.writePacker ((s.packer.emitSummed b).afterHeader s.packedCount))

/-- The even half of a body step: gather the packed byte, emit its high character (R179). -/
def Packer.highHalf (p : Packer) (bm : Memory) : Packer :=
  let q := p.gather bm (p.pos.toNat / 2)
  { q.emitSummed (ahe q.shreg).1 with pos := p.pos + 1 }

/-- The odd half of a body step: emit the low character, reset the bit accumulator, go on to the next byte or to the
footer (R179). -/
def Packer.lowHalf (p : Packer) (n : Nat) : Packer :=
  let q := { p.emitSummed (ahe p.shreg).2 with shreg := 0, bitcnt := 0 }
  if p.pos.toNat < 2 * n - 1 then { q with pos := p.pos + 1 } else { q with pos := 0, phase := .ftr }

/-- A step in `BODY` (R179). -/
def stepBody (s : State) : Result :=
  if s.packer.pos.toNat < 2 * s.packedCount then
    if s.packer.pos.toNat % 2 = 0 then .next (s.writePacker (s.packer.highHalf s.bm))
    else .next (s.writePacker (s.packer.lowHalf s.packedCount))
  else .fault .packerPositionOutOfRange

/-- The first footer step: `S` and `K` from `ACC`, and `ETX`, which is not added (R182). -/
def Packer.footerEtx (p : Packer) : Packer :=
  { p.emit Config.ETX with
    masked := csaMasked p.acc
    check := checkValue (csaMasked p.acc)
    pos := 1 }

/-- The second footer step: the high check character (R182). -/
def Packer.footerHigh (p : Packer) : Packer := { p.emit (ahe p.check).1 with pos := 2 }

/-- The last footer step: the low check character; the build is complete (R182, R183). -/
def Packer.footerLow (p : Packer) : Packer := { p.emit (ahe p.check).2 with pos := 0, phase := .idle }

/-- The command that started the build finishes with status `Ok`: for BUILD `F` is the payload, for SEND `F` becomes
`PENDING` (R175, R183). -/
def finishBuild (s : State) : State :=
  match s.packer.owner with
  | .build => s.respond .ok s.packer.out
  | .send => (s.writePending (some s.packer.out)).done

/-- A step in `FTR` (R182). -/
def stepFooter (s : State) : Result :=
  if s.packer.pos = 0 then .next (s.writePacker s.packer.footerEtx)
  else if s.packer.pos = 1 then .next (s.writePacker s.packer.footerHigh)
  else if s.packer.pos = 2 then .next (finishBuild (s.writePacker s.packer.footerLow))
  else .fault .packerPositionOutOfRange

/-- One step of the packer: it produces one byte (R175). -/
def stepPacker (s : State) : Result :=
  match s.packer.phase with
  | .idle => .fault .packerStepNotEnabled
  | .hdr => stepHeader s
  | .body => stepBody s
  | .ftr => stepFooter s

end Sys2Proof.Machine
end

