-- ==== Sys2Proof/Machine/Step.lean ====
section
/-! DEFINITION. One step of a run: a command, a transport step, an `@fire`, or a step of the packer inside a
byte-level build (60_exceptions.md R237, 70_reset_and_hazards.md R265). -/

namespace Sys2Proof.Machine

/-- A word on the port, its command taken as one atomic transition (00_scope.md R7); a word that matches no command
gets `IllegalCommand` before any state is read (60_exceptions.md R230). -/
def stepCommand (w : CommandWord) (s : State) : Result :=
  match decode w with
  | .ok i => exec i s
  | .error _ => illegalCommand s

/-- A command at the byte level: a build starts and runs on, every other command is a single step
(70_reset_and_hazards.md R264). -/
def execSerial (i : Instr) (s : State) : Result :=
  match i with
  | .config address columns rows => exec (.config address columns rows) s
  | .clear => exec .clear s
  | .fill => exec .fill s
  | .setdot column row lit => exec (.setdot column row lit) s
  | .build => beginBuild s
  | .send => beginSend s
  | .encode value => exec (.encode value) s

/-- A word on the port at the byte level. -/
def stepSerialCommand (w : CommandWord) (s : State) : Result :=
  match decode w with
  | .ok i => execSerial i s
  | .error _ => illegalCommand s

/-- A step while no build is in progress: the next thing the environment offers. With nothing offered the block does
nothing on its own (45_transport_send.md R214; log entry 3). -/
def stepIdle (s : State) : Result :=
  match s.inputs with
  | [] => .next s
  | .command w :: rest => stepCommand w (s.writeInputs rest)
  | .serialCommand w :: rest => stepSerialCommand w (s.writeInputs rest)
  | .event e :: rest => stepEvent e (s.writeInputs rest)
  | .byteStep :: _ => .fault .packerStepNotEnabled

/-- A step while a build is in progress: a command waits on the port and the packer goes on; the transport and the
timer may step (44_serial_frame_packer.md R189). DESIGN CHOICE: an event at the head of the list goes before the packer, and
how many events may do so is not bounded (log entry 26). -/
def stepBuilding (s : State) : Result :=
  match s.inputs with
  | [] => stepPacker s
  | .command _ :: _ => stepPacker s
  | .serialCommand _ :: _ => stepPacker s
  | .event e :: rest => stepEvent e (s.writeInputs rest)
  | .byteStep :: rest => stepPacker (s.writeInputs rest)

/-- One step of the machine. -/
def step (s : State) : Host.Outcome State Fault Refusal :=
  if s.packer.phase = .idle then stepIdle s else stepBuilding s

/-- `s` with the word `w` of `nbits` bits next on the command port: it is what the environment offers first, and no
build in progress holds the port. -/
def State.withFetchWord (s : State) (nbits w : Nat) : State :=
  { s with
    packer := { s.packer with phase := .idle }
    inputs := .command (BitVec.ofNat 80 (w % 2 ^ nbits)) :: s.inputs }

end Sys2Proof.Machine
end

