-- ==== Sys2Proof/Safety.lean ====
section
/-! DEFINITION. What claims about a run are stated in: the spec's arithmetic over the natural numbers, what is a
frame, the invariant of 10_state.md R40 with the one of a build in progress, reachable states, fair runs, complete runs. -/

namespace Sys2Proof

/-! ## The frame as 42_bitmap_to_frame_encoder.md R145 computes it, "all arithmetic over the natural numbers" -/

/-- The code of a hexadecimal digit (30_encoding.md R77). -/
def Spec.hexCode (d : Nat) : Byte := if d ≤ 9 then BitVec.ofNat 8 (0x30 + d) else BitVec.ofNat 8 (0x37 + d)

/-- The digit a hexadecimal character stands for: the inverse of `hexCode` (40_ascii_hex_byte_encoder.md R105). -/
def Spec.unhex (b : Byte) : Nat := if b.toNat ≤ 0x39 then b.toNat - 0x30 else b.toNat - 0x37

/-- One of the characters '0' to '9' and 'A' to 'F' (30_encoding.md R76). -/
def Spec.isHexCode (b : Byte) : Bool :=
  (decide (0x30 ≤ b.toNat) && decide (b.toNat ≤ 0x39)) || (decide (0x41 ≤ b.toNat) && decide (b.toNat ≤ 0x46))

/-- The pair `enc(v)` for `v <= 255`, as two bytes in order (40_ascii_hex_byte_encoder.md R100). -/
def Spec.encChars (v : Nat) : List Byte := [Spec.hexCode (v / 16), Spec.hexCode (v % 16)]

/-- The packed byte `P_k` as a sum of cells (42_bitmap_to_frame_encoder.md R138). -/
def Spec.packed (bm : Machine.Memory) (k : Nat) : Nat :=
  ((List.range 8).map (fun j => (bm.read (8 * k + j)).toNat * 2 ^ j)).sum

/-- Header and body of R145 for a packed count `n` in range. -/
def Spec.headAndBody (address n : Nat) (bm : Machine.Memory) : List Byte :=
  [0x02, 0x31, BitVec.ofNat 8 (address + 0x30)] ++ Spec.encChars n
    ++ (List.range n).flatMap (fun k => Spec.encChars (Spec.packed bm k))

/-- `K` of R145 for the sum of header and body. -/
def Spec.checkOfSum (sum : Nat) : Nat := ((((sum + 1) % 256) ^^^ 0xFF) + 1) % 256

/-- The frame of R145 for an address and a packed count in range. -/
def Spec.frameBytes (address n : Nat) (bm : Machine.Memory) : List Byte :=
  Spec.headAndBody address n bm ++ [0x03]
    ++ Spec.encChars (Spec.checkOfSum (sumBytes (Spec.headAndBody address n bm)))

namespace Machine

/-! ## The invariant -/

/-- Every listed cell is a cell of a bitmap of `n` cells. -/
def Memory.within (m : Memory) (n : Nat) : Bool := m.all (fun c => decide (c.1 < n))

/-- A byte sequence that R145 produced from some geometry with whole byte columns and some bitmap of that size. -/
def IsFrame (f : List Byte) : Prop :=
  ∃ (address : Byte) (columns rows : Word32) (bm : Memory),
    rows.toNat % 8 = 0 ∧ bm.wf = true ∧ bm.within (cellCount columns rows) = true
      ∧ frame address columns rows bm = some f

/-- The accumulator after a sequence of bytes (43_checksum_accumulator.md R161, R162). -/
def csaSum (bytes : List Byte) : BitVec 16 := bytes.foldl csaAdd csaInit

/-- Where a build stands: what it has emitted, what `ACC`, `SHREG`, `S` and `K` hold, in each phase
(44_serial_frame_packer.md R177 to R182). -/
def BuildStands (p : Packer) (header body : List Byte) (bm : Memory) : Prop :=
  match p.phase with
  | .idle => True
  | .hdr => p.pos.toNat ≤ 4 ∧ p.out = header.take p.pos.toNat ∧ p.acc = csaSum p.out
  | .body => p.pos.toNat < body.length ∧ p.out = header ++ body.take p.pos.toNat ∧ p.acc = csaSum p.out
      ∧ (p.pos.toNat % 2 = 1 → p.shreg = packedByte bm (p.pos.toNat / 2))
  | .ftr => p.pos.toNat ≤ 2 ∧ p.out = header ++ body ++ (footerBytes (header ++ body)).take p.pos.toNat
      ∧ p.acc = csaSum (header ++ body)
      ∧ (p.pos ≠ 0 → p.masked = maskedSum (header ++ body) ∧ p.check = checkValue (maskedSum (header ++ body)))

/-- The invariant: 10_state.md R40 (a) to (e) with the bitmap's canonical form and a build in progress standing where its steps have brought it. -/
structure Inv (s : State) : Prop where
  /-- The bitmap is in canonical form. -/
  canonical : s.bm.wf = true
  /-- R40 (a), (b), (c). -/
  geometry : s.configured = true →
    s.rows.toNat % 8 = 0 ∧ s.bm.within (cellCount s.columns s.rows) = true
      ∧ cellCount s.columns s.rows ≤ Config.CAP_CELLS
  /-- R40 (d). -/
  pendingFrame : ∀ f, s.pending = some f → IsFrame f
  /-- R40 (e). -/
  sentFrames : ∃ fs : List (List Byte), (∀ f ∈ fs, IsFrame f) ∧ s.txlog = fs.flatten
  /-- During a build `BITCNT` counts the cells in `SHREG`, 0 to 8 (R36). -/
  cellsShifted : s.packer.phase ≠ .idle → s.packer.bitcnt.toNat ≤ 8
  /-- A build in progress was started with its checks passed, a SEND's with no frame in flight, and it stands where its
  steps have brought it. -/
  building : s.packer.phase ≠ .idle →
    s.configured = true
      ∧ (s.packer.owner = .send → s.pending = none)
      ∧ ∃ header, headerBytes s.address s.packedCount = some header
        ∧ BuildStands s.packer header (bodyBytes s.bm s.packedCount) s.bm

/-- A state some run reaches: the environment may offer any steps from reset on (70_reset_and_hazards.md R256, R265). -/
inductive Reachable : State → Prop where
  | start (inputs : List Input) : Reachable (State.reset.writeInputs inputs)
  | step (s t : State) : Reachable s → step s = .next t → Reachable t

/-- A run without end, in which the environment may offer further steps after every step (00_scope.md R8, 60_exceptions.md
R237; log entry 25). DESIGN CHOICE: nothing makes the packer step between the events it offers, so a run in which events are
offered without end need not end its build (log entry 26). -/
def IsRun (run : Nat → State) : Prop :=
  ∀ n, ∃ t more, step (run n) = .next t ∧ run (n + 1) = t.writeInputs (t.inputs ++ more)

/-- The fairness of the delay timer, "a pending frame whose `@fire` stays enabled is eventually written"
(45_transport_send.md R208, 70_reset_and_hazards.md R264): an `@fire` enabled from some step on happens at or after it. -/
def FairTimer (run : Nat → State) : Prop :=
  ∀ n, (∀ m, n ≤ m → (run m).fireEnabled = true) →
    ∃ m rest, n ≤ m ∧ (run m).inputs = .event .atFire :: rest

/-- The run is complete: the host has its last response, no build is in progress, and no frame is pending
(70_reset_and_hazards.md R265). -/
def State.complete (s : State) : Bool :=
  s.inputs.all (fun i => match i with
    | .command _ => false
    | .serialCommand _ => false
    | .event _ => true
    | .byteStep => true)
    && decide (s.packer.phase = .idle) && decide (s.pending = none)

end Machine

end Sys2Proof
end

