-- ==== Sys2Proof/Certificates/Slice0/Obligations.lean ====
section
/-! DEFINITION. The statements about the model, for the provers: each says which rule of spec/ it comes from. -/

open Sys2Proof Sys2Proof.Machine

/-! ## Encoding (30_encoding.md Part B) -/

/-- A few words written out from the spec's encoding decode to the commands they stand for (R80, R81, R84). -/
def Obligations.SpecWordsDecode : Prop :=
  decode 0x01060000000200000008 = .ok (.config 6 2 8)
    ∧ decode 0x02000000000000000000 = .ok .clear
    ∧ decode 0x03000000000000000000 = .ok .fill
    ∧ decode 0x04010000000100000003 = .ok (.setdot 1 3 1)
    ∧ decode 0x05000000000000000000 = .ok .build
    ∧ decode 0x06000000000000000000 = .ok .send
    ∧ decode 0x07000000000A00000000 = .ok (.encode 10)

/-- Decode and encode agree: every command, with every operand at every value its field admits, is read back from its
word. The operand types are the fields' widths, so every term is well formed (R80, R84). -/
def Obligations.DecodeOfEncodeIsTheCommand : Prop :=
  ∀ i : Instr, decode (encode i) = .ok i

/-- The other direction: a word the decoder accepts is the word of the command it reads, so no bit of it is ignored
and each word has one meaning (R82, R83). -/
def Obligations.EncodeOfDecodeIsTheWord : Prop :=
  ∀ (w : CommandWord) (i : Instr), decode w = .ok i → encode i = w

/-- R82: a word is command X exactly when `w & mask_X = match_X`, and no word matches two rows. -/
def Obligations.DecodeSelectsByMaskAndMatch : Prop :=
  (∀ (w : CommandWord) (row : CommandRow), row ∈ commandRows →
    ((w &&& row.maskBits = row.matchBits) ↔ ∃ i, decode w = .ok i ∧ i.row = row))
  ∧ ∀ (w : CommandWord) (r₁ r₂ : CommandRow), r₁ ∈ commandRows → r₂ ∈ commandRows →
      w &&& r₁.maskBits = r₁.matchBits → w &&& r₂.maskBits = r₂.matchBits → r₁ = r₂

/-! ## The step -/

/-- While the port is free and the environment's next step is a word that decodes to `i`, the step is `exec i` of the state
with that input taken; offered at the byte level it is `execSerial i`, which for every command but `BUILD` and `SEND` is the
same single step (70_reset_and_hazards.md R264). That the environment's offers stand in a list of State, and that the host
says at which level it offers a word, is the model's choice (log entries 2, 14). -/
def Obligations.StepRunsTheDecodedCommand : Prop :=
  ∀ (s : State) (w : CommandWord) (rest : List Input) (i : Instr), s.packer.phase = .idle → decode w = .ok i →
    (s.inputs = .command w :: rest → step s = exec i { s with inputs := rest })
    ∧ (s.inputs = .serialCommand w :: rest →
      step s = execSerial i { s with inputs := rest }
        ∧ (i ≠ .build → i ≠ .send → step s = exec i { s with inputs := rest }))

/-- A word that matches no row gets `IllegalCommand`, at either level, whatever the state holds; nothing else changes
(R83, 60_exceptions.md R230; the byte-level offer is the model's, log entry 14). -/
def Obligations.UnmatchedWordGetsIllegalCommand : Prop :=
  ∀ (s : State) (w : CommandWord) (rest : List Input),
    s.packer.phase = .idle → (s.inputs = .command w :: rest ∨ s.inputs = .serialCommand w :: rest) →
    (∀ row ∈ commandRows, w &&& row.maskBits ≠ row.matchBits) →
    step s = .next { s with inputs := rest, responses := s.responses ++ [⟨.illegalCommand, []⟩] }

/-! ## Reset and the invariant -/

/-- What reset leaves, as far as the spec gives it (10_state.md R41, 70_reset_and_hazards.md R255). -/
def Obligations.ResetLeavesTheSpecifiedValues : Prop :=
  State.reset.configured = false ∧ State.reset.tstate = .closed ∧ State.reset.pending = none
    ∧ State.reset.txlog = [] ∧ State.reset.packer.phase = .idle

/-- The invariant holds right after reset, whatever the environment will offer. What it says of the bitmap there, that it is
in canonical form, is of the empty list the model chose (log entries 10, 22). -/
def Obligations.ResetMeetsTheInvariant : Prop :=
  ∀ inputs : List Input, Inv { State.reset with inputs := inputs }

/-- Every step keeps the invariant: the bitmap stays canonical and inside its geometry, ROWS stays a multiple of 8, a
pending frame stays a frame, TXLOG stays a concatenation of frames, and a build in progress stands where R177 to R182 put
it, with nothing in flight if a SEND started it and BITCNT at most 8 (10_state.md R36, R40, 45_transport_send.md R203, R204,
R207). The canonical form, the responses and inputs, and the owner of a build are the model's choice (log entries 22, 1, 2,
13). -/
def Obligations.EveryStepKeepsTheStateInvariant : Prop :=
  ∀ s t : State, Inv s → step s = .next t → Inv t

/-- 10_state.md R40: in every reachable state with CONFIGURED = 1, ROWS is a multiple of 8, the listed cells lie in
COLUMNS * ROWS, which is at most CAP_CELLS, PENDING is none or a frame, and TXLOG is a concatenation of frames. That the
listed cells are the lit ones is the model's choice (log entry 22). -/
def Obligations.ReachableStatesKeepTheGeometryAndFrames : Prop :=
  ∀ s : State, Reachable s → s.configured = true →
    s.rows.toNat % 8 = 0
      ∧ (∀ i, s.columns.toNat * s.rows.toNat ≤ i → s.bm.read i = 0)
      ∧ s.columns.toNat * s.rows.toNat ≤ Config.CAP_CELLS
      ∧ (s.pending = none ∨ ∃ f, s.pending = some f ∧ IsFrame f)
      ∧ ∃ fs : List (List Byte), (∀ f ∈ fs, IsFrame f) ∧ s.txlog = fs.flatten

/-! ## The byte encoder (40_ascii_hex_byte_encoder.md) -/

/-- `ENCODE value`: two characters, high first, for a value up to 255, `InvalidArgument` above, in every state (R101). -/
def Obligations.EncodeAnswersItsTwoCharacters : Prop :=
  ∀ (value : Word32) (s : State),
    (value.toNat ≤ 255 →
      exec (.encode value) s
        = .next { s with responses := s.responses ++ [⟨.ok, Spec.encChars value.toNat⟩] })
    ∧ (255 < value.toNat →
      exec (.encode value) s = .next { s with responses := s.responses ++ [⟨.invalidArgument, []⟩] })

/-- R105: for every value in [0, 255] the encoder gives two characters of the hexadecimal alphabet, which decode back to
the value; so it is injective. -/
def Obligations.EncodedByteDecodesBack : Prop :=
  (∀ v : Nat, v ≤ 255 → ∃ high low, enc v = some (high, low)
    ∧ Spec.isHexCode high = true ∧ Spec.isHexCode low = true
    ∧ 16 * Spec.unhex high + Spec.unhex low = v)
  ∧ ∀ u v : Nat, u ≤ 255 → v ≤ 255 → enc u = enc v → u = v

/-! ## The bitmap store (41_bitmap_store.md, 20_memory.md) -/

/-- R127: `round8(r) = 8 * ((r + 7) div 8)` is the least multiple of 8 not below `r`. -/
def Obligations.RoundingGivesTheLeastMultipleOfEight : Prop :=
  ∀ r : Nat, round8 r = 8 * ((r + 7) / 8) ∧ 8 ∣ round8 r ∧ r ≤ round8 r
    ∧ (∀ m, 8 ∣ m → r ≤ m → round8 r ≤ m) ∧ (8 ∣ r → round8 r = r)

/-- `CONFIG` that passes its two checks constructs the instance: the operands in the registers with ROWS rounded, every
cell unlit, CONFIGURED set, and the transport's state, PENDING and TXLOG untouched (R116, R118, R25). That the packer's
registers are untouched too is the model's choice (log entry 12). -/
def Obligations.ConfigConstructsTheInstance : Prop :=
  ∀ (address : Byte) (columns rowsReq : Word32) (s : State),
    rowsReq.toNat ≤ 0xFFFFFFF8 → columns.toNat * (8 * ((rowsReq.toNat + 7) / 8)) ≤ Config.CAP_CELLS →
    ∃ t, exec (.config address columns rowsReq) s = .next t
      ∧ t = { s with configured := true, address := address, columns := columns, rows := t.rows, bm := t.bm,
                     responses := s.responses ++ [⟨.ok, []⟩] }
      ∧ t.rows.toNat = 8 * ((rowsReq.toNat + 7) / 8)
      ∧ ∀ i, t.bm.read i = 0

/-- R117: `CONFIG` returns `InvalidArgument` when the rounded row count does not fit 32 bits, that is above 0xFFFFFFF8,
and when the cells exceed CAP_CELLS, which is at least 2040; in both cases no state changes. -/
def Obligations.ConfigRejectsWhatDoesNotFit : Prop :=
  2040 ≤ Config.CAP_CELLS
  ∧ ∀ (address : Byte) (columns rowsReq : Word32) (s : State),
    (0xFFFFFFF8 < rowsReq.toNat ∨ Config.CAP_CELLS < columns.toNat * (8 * ((rowsReq.toNat + 7) / 8))) →
    exec (.config address columns rowsReq) s
      = .next { s with responses := s.responses ++ [⟨.invalidArgument, []⟩] }

/-- `CLEAR` leaves every cell unlit, those of the rows added by rounding included, and changes nothing else (R119). -/
def Obligations.ClearUnlightsEveryCell : Prop :=
  ∀ s : State, s.configured = true →
    ∃ t, exec .clear s = .next t
      ∧ t = { s with bm := t.bm, responses := s.responses ++ [⟨.ok, []⟩] }
      ∧ ∀ i, i < s.columns.toNat * s.rows.toNat → t.bm.read i = 0

/-- `FILL` leaves every cell lit, those of the rows added by rounding included, and changes nothing else (R121). -/
def Obligations.FillLightsEveryCell : Prop :=
  ∀ s : State, s.configured = true →
    ∃ t, exec .fill s = .next t
      ∧ t = { s with bm := t.bm, responses := s.responses ++ [⟨.ok, []⟩] }
      ∧ ∀ i, i < s.columns.toNat * s.rows.toNat → t.bm.read i = 1

/-- After `FILL` every packed byte of a frame is 0xFF and every body character is 'F' (R121, R122). -/
def Obligations.FilledPanelPacksToAllOnes : Prop :=
  ∀ s : State, s.configured = true →
    ∃ t, exec .fill s = .next t
      ∧ (∀ k, k < (s.rows.toNat * s.columns.toNat) / 8 → packedByte t.bm k = 0xFF)
      ∧ bodyBytes t.bm ((s.rows.toNat * s.columns.toNat) / 8)
          = List.replicate (2 * ((s.rows.toNat * s.columns.toNat) / 8)) 0x46

/-- R120: clearing, filling and clearing gives the frame of the freshly constructed bitmap of the same geometry; after
`CLEAR` the bitmap is exactly the one after `CONFIG`. -/
def Obligations.ClearFillClearGivesTheFreshFrame : Prop :=
  ∀ (address : Byte) (columns rowsReq : Word32) (s : State),
    rowsReq.toNat ≤ 0xFFFFFFF8 → columns.toNat * (8 * ((rowsReq.toNat + 7) / 8)) ≤ Config.CAP_CELLS →
    ∃ t₀ t₁ t₂ t₃, exec (.config address columns rowsReq) s = .next t₀ ∧ exec .clear t₀ = .next t₁
      ∧ exec .fill t₁ = .next t₂ ∧ exec .clear t₂ = .next t₃
      ∧ t₁.bm = t₀.bm ∧ t₃.bm = t₀.bm ∧ t₃.frame = t₀.frame

/-- `SETDOT` in bounds writes the one cell at `column * ROWS + row` and changes nothing else (R123, 20_memory.md R51,
R61). -/
def Obligations.SetdotWritesExactlyOneCell : Prop :=
  ∀ (column row : Word32) (lit : BitVec 1) (s : State),
    s.configured = true → s.bm.wf = true → column.toNat < s.columns.toNat → row.toNat < s.rows.toNat →
    ∃ t, exec (.setdot column row lit) s = .next t
      ∧ t = { s with bm := t.bm, responses := s.responses ++ [⟨.ok, []⟩] }
      ∧ t.bm.read (column.toNat * s.rows.toNat + row.toNat) = lit
      ∧ ∀ i, i ≠ column.toNat * s.rows.toNat + row.toNat → t.bm.read i = s.bm.read i

/-- R124: `SETDOT` with a coordinate out of bounds, each checked by itself against the effective geometry, returns
`IndexOutOfRange` and leaves the bitmap, and everything else, unmodified. -/
def Obligations.SetdotOutOfBoundsChangesNothing : Prop :=
  ∀ (column row : Word32) (lit : BitVec 1) (s : State), s.configured = true →
    (s.columns.toNat ≤ column.toNat ∨ s.rows.toNat ≤ row.toNat) →
    exec (.setdot column row lit) s
      = .next { s with responses := s.responses ++ [⟨.indexOutOfRange, []⟩] }

/-- The rows added by rounding can be set, and the first row past them cannot: after `CONFIG` the bound of `SETDOT` is the
rounded row count (R125). -/
def Obligations.PaddingRowsAreOrdinaryRows : Prop :=
  ∀ (address : Byte) (columns rowsReq column row : Word32) (lit : BitVec 1) (s : State),
    rowsReq.toNat ≤ 0xFFFFFFF8 → columns.toNat * (8 * ((rowsReq.toNat + 7) / 8)) ≤ Config.CAP_CELLS →
    column.toNat < columns.toNat →
    ∃ t₀ t₁, exec (.config address columns rowsReq) s = .next t₀ ∧ exec (.setdot column row lit) t₀ = .next t₁
      ∧ t₁.responses = t₀.responses
          ++ [⟨if row.toNat < 8 * ((rowsReq.toNat + 7) / 8) then .ok else .indexOutOfRange, []⟩]

/-- `CLEAR`, `FILL` and `SETDOT` are idempotent: issued twice in a row they leave the state they leave once, but for the
second response (20_memory.md R63). -/
def Obligations.DrawingCommandsAreIdempotent : Prop :=
  ∀ (i : Instr) (s t : State), s.bm.wf = true → (i = .clear ∨ i = .fill ∨ ∃ column row lit, i = .setdot column row lit) →
    exec i s = .next t → ∃ r, exec i t = .next { t with responses := t.responses ++ [r] }

/-- R126: nothing but `CONFIG`, `CLEAR`, `FILL` and `SETDOT` changes a cell, over every step of the machine. -/
def Obligations.OnlyStoreCommandsChangeACell : Prop :=
  ∀ s t : State, step s = .next t → t.bm ≠ s.bm →
    ∃ w rest i, (s.inputs = .command w :: rest ∨ s.inputs = .serialCommand w :: rest) ∧ decode w = .ok i
      ∧ (i.row = rowConfig ∨ i.row = rowClear ∨ i.row = rowFill ∨ i.row = rowSetdot)

/-- Nothing but `CONFIG` writes the geometry registers or CONFIGURED, and no step clears CONFIGURED (10_state.md R24,
R25, R28). -/
def Obligations.OnlyConfigWritesTheGeometry : Prop :=
  ∀ s t : State, step s = .next t →
    (s.configured = true → t.configured = true)
    ∧ ((t.address ≠ s.address ∨ t.columns ≠ s.columns ∨ t.rows ≠ s.rows ∨ t.configured ≠ s.configured) →
      ∃ w rest i, (s.inputs = .command w :: rest ∨ s.inputs = .serialCommand w :: rest) ∧ decode w = .ok i
        ∧ i.row = rowConfig)

/-- R51: the flat index is `column * ROWS + row`, and it has the inverse `column = i div ROWS`, `row = i mod ROWS`. -/
def Obligations.FlatIndexIsColumnMajor : Prop :=
  ∀ rows column row : Word32, flatIndex rows column row = column.toNat * rows.toNat + row.toNat
    ∧ (row.toNat < rows.toNat →
      flatIndex rows column row / rows.toNat = column.toNat ∧ flatIndex rows column row % rows.toNat = row.toNat)

/-- R53: packed byte `k` has cell `8k + j` at bit `j`, the first cell visited at bit 0. -/
def Obligations.PackedByteIsLeastSignificantCellFirst : Prop :=
  ∀ (m : Memory) (k j : Nat), j < 8 →
    (packedByte m k).getLsbD j = decide (m.read (8 * k + j) = 1)

/-- Packed byte `k` lies wholly in column `k div (ROWS div 8)`, rows `8 * (k mod (ROWS div 8))` to that plus 7, the lowest
row at bit 0 (20_memory.md R54). -/
def Obligations.PackedByteLiesInOneColumn : Prop :=
  ∀ (m : Memory) (columns rows : Word32) (k j : Nat), rows.toNat % 8 = 0 →
    k < (rows.toNat * columns.toNat) / 8 → j < 8 →
    ∃ column row : Word32, column.toNat = k / (rows.toNat / 8)
      ∧ row.toNat = 8 * (k % (rows.toNat / 8)) + j
      ∧ column.toNat < columns.toNat ∧ row.toNat < rows.toNat
      ∧ (packedByte m k).getLsbD j = decide (m.read (flatIndex rows column row) = 1)

/-- R56 and R55: `MemWrite(addr, n, v)` sets bit `j` of `v` in cell `addr + j` and changes no other cell, and `MemRead` of
the same cells gives `v` back. -/
def Obligations.MemReadGivesBackWhatMemWriteStored : Prop :=
  ∀ (m : Memory) (addr n v : Nat), m.wf = true → v < 2 ^ n →
    (∀ j, j < n → (m.memWrite addr n v).read (addr + j) = BitVec.ofBool (v.testBit j))
      ∧ (∀ i, (i < addr ∨ addr + n ≤ i) → (m.memWrite addr n v).read i = m.read i)
      ∧ (m.memWrite addr n v).memRead addr n = v

/-! ## Building a frame (42_bitmap_to_frame_encoder.md, 43_checksum_accumulator.md) -/

/-- `BUILD` with a packed count of at most 255 and an address of at most 207 answers the frame of R145, computed over the
natural numbers, as its payload, and writes no state (R135, R145, R149). That the atomic command leaves the packer's
registers as they were is the model's choice (log entry 12). -/
def Obligations.BuildAnswersTheWholeFrame : Prop :=
  ∀ s : State, s.configured = true → (s.rows.toNat * s.columns.toNat) / 8 ≤ 255 → s.address.toNat ≤ 207 →
    exec .build s = .next { s with
      responses := s.responses
        ++ [⟨.ok, Spec.frameBytes s.address.toNat ((s.rows.toNat * s.columns.toNat) / 8) s.bm⟩] }

/-- `BUILD` with more than 255 packed bytes, or with an address of 208 or more, returns `InvalidArgument`, delivers no byte
and changes nothing (R136, R137, R147). -/
def Obligations.BuildRejectsWhatHasNoFrame : Prop :=
  ∀ s : State, s.configured = true → (255 < (s.rows.toNat * s.columns.toNat) / 8 ∨ 208 ≤ s.address.toNat) →
    exec .build s = .next { s with responses := s.responses ++ [⟨.invalidArgument, []⟩] }

/-- 30_encoding.md R75: a frame is `8 + 2N` bytes, between 8 and 518, and ETX stands at index `5 + 2N` where `N` is the
value the length field spells. -/
def Obligations.FrameLengthAgreesWithItsLengthField : Prop :=
  ∀ (address : Byte) (columns rows : Word32) (m : Memory) (f : List Byte),
    frame address columns rows m = some f →
    ∃ high low : Byte, f[3]? = some high ∧ f[4]? = some low
      ∧ 16 * Spec.unhex high + Spec.unhex low = (rows.toNat * columns.toNat) / 8
      ∧ f.length = 8 + 2 * ((rows.toNat * columns.toNat) / 8) ∧ 8 ≤ f.length ∧ f.length ≤ 518
      ∧ f[5 + 2 * ((rows.toNat * columns.toNat) / 8)]? = some 0x03

/-- 30_encoding.md R76: every byte of a frame is STX, FTYPE, the address byte, ETX or one of the sixteen characters; STX and
ETX occur once each, at index 0 and at index `5 + 2N`. -/
def Obligations.FrameAlphabetAndUniqueMarkers : Prop :=
  ∀ (address : Byte) (columns rows : Word32) (m : Memory) (f : List Byte) (i : Nat) (b : Byte),
    frame address columns rows m = some f → f[i]? = some b →
    (b = 0x02 ↔ i = 0)
      ∧ (b = 0x03 ↔ i = 5 + 2 * ((rows.toNat * columns.toNat) / 8))
      ∧ (i = 1 → b = 0x31)
      ∧ (i = 2 → b.toNat = address.toNat + 0x30)
      ∧ (i ≠ 0 → i ≠ 2 → i ≠ 5 + 2 * ((rows.toNat * columns.toNat) / 8) → Spec.isHexCode b = true)

/-- R151: for every frame with check value `K`, the bytes after STX up to and including ETX and `K` sum to 0 modulo 256. -/
def Obligations.BytesAfterStxAndCheckSumToZero : Prop :=
  ∀ (address : Byte) (columns rows : Word32) (m : Memory) (f : List Byte),
    frame address columns rows m = some f →
    ∃ K : Nat, K < 256 ∧ f.drop (f.length - 2) = Spec.encChars K
      ∧ (sumBytes ((f.drop 1).take (f.length - 3)) + K) % 256 = 0

/-- R164: `K = ((S ^ 0xFF) + 1) mod 256` is `(256 - S) mod 256`, 0 at `S = 0`, and `(S + K) mod 256 = 0`. -/
def Obligations.CheckValueIsTheByteNegation : Prop :=
  ∀ S : Byte, (checkValue S).toNat = ((S.toNat ^^^ 0xFF) + 1) % 256
    ∧ (checkValue S).toNat = (256 - S.toNat) % 256 ∧ (S.toNat + (checkValue S).toNat) % 256 = 0

/-- R165: an accumulator that wraps at 8 bits after every addition ends with the same low 8 bits as the 16-bit ACC. -/
def Obligations.NarrowAccumulationGivesTheSameMaskedSum : Prop :=
  ∀ bytes : List Byte, csaMasked (csaSum bytes) = bytes.foldl (fun acc b => acc + b) (1 : Byte)

/-- R166: over the header and body of any frame ACC is the exact sum plus 1, at least 196 and at most 36147, so 16 bits
never overflow. -/
def Obligations.AccumulatorNeverOverflows : Prop :=
  ∀ (address : Byte) (columns rows : Word32) (m : Memory) (f : List Byte),
    frame address columns rows m = some f →
    (csaSum (f.take (f.length - 3))).toNat = sumBytes (f.take (f.length - 3)) + 1
      ∧ 196 ≤ sumBytes (f.take (f.length - 3)) + 1 ∧ sumBytes (f.take (f.length - 3)) + 1 ≤ 36147

/-! ## Failures (60_exceptions.md) -/

/-- R231: while CONFIGURED is 0, `CLEAR`, `FILL`, `SETDOT`, `BUILD` and `SEND` return `NotConfigured` and change nothing;
`CONFIG` and `ENCODE` never return it. -/
def Obligations.UnconfiguredCommandsAreTurnedAway : Prop :=
  (∀ (i : Instr) (s : State), s.configured = false → i.row ≠ rowConfig → i.row ≠ rowEncode →
    exec i s = .next { s with responses := s.responses ++ [⟨.notConfigured, []⟩] })
  ∧ ∀ (i : Instr) (s : State), (i.row = rowConfig ∨ i.row = rowEncode) →
    ∃ t r, exec i s = .next t ∧ t.responses = s.responses ++ [r] ∧ r.status ≠ .notConfigured

/-- R232: every word on the port, a command or not, gets exactly one response; one whose status is a failure has an empty
payload and leaves every piece of state exactly as it was. -/
def Obligations.FailuresChangeNothing : Prop :=
  ∀ (w : CommandWord) (s : State), ∃ t r, stepCommand w s = .next t ∧ t.responses = s.responses ++ [r]
    ∧ (r.status ≠ .ok → r.payload = [] ∧ t = { s with responses := s.responses ++ [r] })

/-- 30_encoding.md R86: the status has the codes of the table, 7 is the code of none, and the payload is empty unless the
status is `Ok` and the command is `ENCODE`, with two bytes, the high character first, or `BUILD`, with `8 + 2N`. -/
def Obligations.ResponsesHaveTheirCodesAndPayloads : Prop :=
  (Status.ok.code = 0 ∧ Status.invalidArgument.code = 1 ∧ Status.indexOutOfRange.code = 2
    ∧ Status.transportUnavailable.code = 3 ∧ Status.illegalCommand.code = 4 ∧ Status.notConfigured.code = 5
    ∧ Status.busy.code = 6 ∧ ∀ st : Status, st.code ≠ 7)
  ∧ ∀ (i : Instr) (s t : State) (r : Response), exec i s = .next t → t.responses = s.responses ++ [r] →
    (r.payload = [] ∧ (i.row = rowEncode ∨ i.row = rowBuild → r.status ≠ .ok))
    ∨ (r.status = .ok ∧ (∃ value, i = .encode value ∧ r.payload = Spec.encChars value.toNat) ∧ r.payload.length = 2)
    ∨ (r.status = .ok ∧ i = .build ∧ s.frame = some r.payload
      ∧ r.payload.length = 8 + 2 * ((s.rows.toNat * s.columns.toNat) / 8))

/-- 10_state.md R27: a command's outcome does not depend on what earlier commands returned. That the responses stand in
State is the model's choice (log entry 1). -/
def Obligations.OutcomeIgnoresEarlierResponses : Prop :=
  ∀ (i : Instr) (s : State) (earlier : List Response), ∃ t r,
    exec i s = .next t ∧ t.responses = s.responses ++ [r]
      ∧ exec i { s with responses := earlier } = .next { t with responses := earlier ++ [r] }

/-- 10_state.md R37: no command's result depends on ACC, PHASE, POS, SHREG or BITCNT, and no command writes them. That an atomic
command leaves them alone is the model's choice (log entry 12). -/
def Obligations.CommandsNeitherReadNorWriteTheTransientRegisters : Prop :=
  ∀ (i : Instr) (s : State) (p : Packer), ∃ t,
    exec i s = .next t ∧ t.packer = s.packer ∧ exec i { s with packer := p } = .next { t with packer := p }

/-! ## The transport (45_transport_send.md) -/

/-- `SEND` on a configured block with a ready transport, no frame in flight, a packed count of at most 255 and an address of
at most 207 holds the frame of the current bitmap in PENDING and changes nothing else (R203, 20_memory.md R67). That the atomic command
leaves the packer's registers as they were is the model's choice (log entry 12). -/
def Obligations.SendHoldsTheFrameOfTheMoment : Prop :=
  ∀ s : State, s.configured = true → s.tstate = .ready → s.pending = none →
    (s.rows.toNat * s.columns.toNat) / 8 ≤ 255 → s.address.toNat ≤ 207 →
    exec .send s = .next { s with
      pending := some (Spec.frameBytes s.address.toNat ((s.rows.toNat * s.columns.toNat) / 8) s.bm)
      responses := s.responses ++ [⟨.ok, []⟩] }

/-- `SEND`'s failures in the order of 60_exceptions.md R233: not configured, transport not ready (R206), a frame in flight
(R204), no frame for the geometry or the address. -/
def Obligations.SendFailsInTheStatedOrder : Prop :=
  ∀ s : State,
    (s.configured = false →
      exec .send s = .next { s with responses := s.responses ++ [⟨.notConfigured, []⟩] })
    ∧ (s.configured = true → s.tstate ≠ .ready →
      exec .send s = .next { s with responses := s.responses ++ [⟨.transportUnavailable, []⟩] })
    ∧ (s.configured = true → s.tstate = .ready → s.pending ≠ none →
      exec .send s = .next { s with responses := s.responses ++ [⟨.busy, []⟩] })
    ∧ (s.configured = true → s.tstate = .ready → s.pending = none →
      (255 < (s.rows.toNat * s.columns.toNat) / 8 ∨ 208 ≤ s.address.toNat) →
      exec .send s = .next { s with responses := s.responses ++ [⟨.invalidArgument, []⟩] })

/-- In every state every command leaves what has been transmitted and the transport's state alone, and a frame in flight
stays as it is: `CONFIG`, `CLEAR`, `FILL`, `SETDOT` and a further `SEND` included (R201, R210, 20_memory.md R67). -/
def Obligations.CommandsLeaveAPendingFrameAlone : Prop :=
  ∀ (i : Instr) (s : State), ∃ t, exec i s = .next t ∧ t.txlog = s.txlog ∧ t.tstate = s.tstate
    ∧ ∀ f, s.pending = some f → t.pending = some f

/-- `@fire` with a frame pending and the transport ready appends the whole frame to TXLOG in one step and frees PENDING;
nothing else changes (R207; the delay is left out, log entry 8). -/
def Obligations.FireWritesThePendingFrame : Prop :=
  ∀ (s : State) (f : List Byte) (rest : List Input),
    s.inputs = .event .atFire :: rest → s.pending = some f → s.tstate = .ready →
    step s = .next { s with inputs := rest, txlog := s.txlog ++ f, pending := none }

/-- The step at a state whose next input is an event, in every phase of a build: `@open` happens from Closed and `@ready`
from Opening, and nowhere else; `@close` happens from Opening and Ready with no frame in flight, a build in progress or
not (44_serial_frame_packer.md R189), and is refused by name under a pending frame, as R209 asks of a model; `@fire` happens
with a frame pending and the transport ready, and nowhere else (R201, R207). That a step which is not enabled is a named
fault, that `@close` comes during a byte-level SEND too, and that the delay is left out, is of log entries 4, 6 and 8. -/
def Obligations.EventsHappenExactlyWhereEnabled : Prop :=
  ∀ (s : State) (rest : List Input),
    (s.inputs = .event .atOpen :: rest → step s
      = if s.tstate = .closed then .next { s with inputs := rest, tstate := .opening }
        else .fault (.eventNotEnabled .atOpen))
    ∧ (s.inputs = .event .atReady :: rest → step s
      = if s.tstate = .opening then .next { s with inputs := rest, tstate := .ready }
        else .fault (.eventNotEnabled .atReady))
    ∧ (s.inputs = .event .atClose :: rest → step s
      = if s.tstate = .closed then .fault (.eventNotEnabled .atClose)
        else if s.pending = none then .next { s with inputs := rest, tstate := .closed }
        else .refused .closeWhilePending)
    ∧ (s.inputs = .event .atFire :: rest →
      ((s.pending = none ∨ s.tstate ≠ .ready) → step s = .fault (.eventNotEnabled .atFire))
      ∧ ∀ f, s.pending = some f → s.tstate = .ready →
        step s = .next { s with inputs := rest, txlog := s.txlog ++ f, pending := none })

/-- 10_state.md R34: TXLOG is empty after reset and only ever grows, by the whole frame that was pending, at an `@fire`. -/
def Obligations.TransmissionsAreWholePendingFrames : Prop :=
  State.reset.txlog = []
  ∧ ∀ s t : State, step s = .next t →
    t.txlog = s.txlog
    ∨ ∃ f rest, s.inputs = .event .atFire :: rest ∧ s.pending = some f ∧ s.tstate = .ready
      ∧ t.txlog = s.txlog ++ f ∧ t.pending = none

/-- A pending frame cannot be cancelled or replaced: only `@fire` clears PENDING, over every step of the machine (R210). -/
def Obligations.OnlyFireClearsAPendingFrame : Prop :=
  ∀ (s t : State) (f : List Byte), Inv s → s.pending = some f → step s = .next t →
    t.pending = some f ∨ ∃ rest, s.inputs = .event .atFire :: rest

/-- From every state of the invariant with a frame pending under a ready transport, an `@fire` offered next writes it, and
in every run without end in which the timer is fair it is written at some later step: the transport stays ready under it,
since `@close` is refused there (R208, R209, 70_reset_and_hazards.md R264). That `@fire` needs no delay is log entry 8, that
a run stops at a refused `@close` log entry 5, and what a fair run is log entry 25. -/
def Obligations.APendingFrameCanAlwaysBeWritten : Prop :=
  (∀ (s : State) (f : List Byte) (rest : List Input), Inv s → s.pending = some f → s.tstate = .ready →
    s.inputs = .event .atFire :: rest →
    ∃ t, step s = .next t ∧ t.txlog = s.txlog ++ f ∧ t.pending = none ∧ IsFrame f)
  ∧ ∀ (run : Nat → State) (n : Nat) (f : List Byte), IsRun run → FairTimer run → Inv (run n) →
    (run n).pending = some f → (run n).tstate = .ready →
    ∃ m, n ≤ m ∧ (run m).pending = some f ∧ (run (m + 1)).txlog = (run m).txlog ++ f ∧ (run (m + 1)).pending = none

/-! ## The serial frame packer (44_serial_frame_packer.md) -/

/-- R177: the start of a build, for a `BUILD` or a `SEND` whose checks have passed. The byte-level offer and the field
that remembers the command are the model's (log entries 13, 14). -/
def Obligations.BuildStartsAfterItsChecks : Prop :=
  ∀ (s : State) (w : CommandWord) (rest : List Input) (i : Instr) (owner : BuildOwner),
    s.packer.phase = .idle → s.inputs = .serialCommand w :: rest → decode w = .ok i →
    ((i = .build ∧ owner = .build) ∨ (i = .send ∧ owner = .send ∧ s.tstate = .ready ∧ s.pending = none)) →
    s.configured = true → (s.rows.toNat * s.columns.toNat) / 8 ≤ 255 → s.address.toNat ≤ 207 →
    step s = .next { s with
      inputs := rest
      packer := { s.packer with
        out := [], acc := 1, shreg := 0, bitcnt := 0, pos := 0, phase := .hdr, owner := owner } }

/-- The same failures at the byte level as at the command level: where a check fails the build does not start, PHASE stays
IDLE and no byte is emitted (R177, 42_bitmap_to_frame_encoder.md R147). -/
def Obligations.FailedChecksStartNoBuild : Prop :=
  ∀ (i : Instr) (s t : State) (r : Response), (i = .build ∨ i = .send) →
    exec i s = .next t → t.responses = s.responses ++ [r] → r.status ≠ .ok → execSerial i s = .next t

/-- R178: a step in HDR at position `i` emits header byte `i` and adds it to ACC; after the fifth byte the phase is FTR when
there is no packed byte and BODY otherwise. -/
def Obligations.HeaderStepEmitsOneHeaderByte : Prop :=
  ∀ (s : State) (b : Byte), s.packer.phase = .hdr → s.packer.pos.toNat ≤ 4 →
    (s.rows.toNat * s.columns.toNat) / 8 ≤ 255 → s.address.toNat ≤ 207 →
    ([0x02, 0x31, BitVec.ofNat 8 (s.address.toNat + 0x30)]
      ++ Spec.encChars ((s.rows.toNat * s.columns.toNat) / 8))[s.packer.pos.toNat]? = some b →
    stepPacker s = .next { s with packer := { s.packer with
      out := s.packer.out ++ [b]
      acc := s.packer.acc + b.setWidth 16
      pos := if s.packer.pos.toNat < 4 then s.packer.pos + 1 else 0
      phase := if s.packer.pos.toNat < 4 then .hdr
        else if (s.rows.toNat * s.columns.toNat) / 8 = 0 then .ftr else .body } }

/-- R181 with the even step of R179: the packer gathers packed byte `k` into SHREG, BITCNT counts its 8 cells, and the high
character is emitted and added. -/
def Obligations.EvenBodyStepGathersAPackedByte : Prop :=
  ∀ (s : State) (k : Nat), s.packer.phase = .body → s.packer.pos.toNat = 2 * k →
    k < (s.rows.toNat * s.columns.toNat) / 8 →
    stepPacker s = .next { s with packer := { s.packer with
      out := s.packer.out ++ [Spec.hexCode (Spec.packed s.bm k / 16)]
      acc := s.packer.acc + (Spec.hexCode (Spec.packed s.bm k / 16)).setWidth 16
      shreg := BitVec.ofNat 8 (Spec.packed s.bm k)
      bitcnt := 8
      pos := s.packer.pos + 1 } }

/-- The odd step of R179: the low character of SHREG is emitted and added, the bit accumulator is reset, and after the last
body byte the phase is FTR. -/
def Obligations.OddBodyStepEmitsTheLowCharacter : Prop :=
  ∀ (s : State) (k : Nat), s.packer.phase = .body → s.packer.pos.toNat = 2 * k + 1 →
    k < (s.rows.toNat * s.columns.toNat) / 8 →
    stepPacker s = .next { s with packer := { s.packer with
      out := s.packer.out ++ [Spec.hexCode (s.packer.shreg.toNat % 16)]
      acc := s.packer.acc + (Spec.hexCode (s.packer.shreg.toNat % 16)).setWidth 16
      shreg := 0
      bitcnt := 0
      pos := if 2 * k + 1 < 2 * ((s.rows.toNat * s.columns.toNat) / 8) - 1 then s.packer.pos + 1 else 0
      phase := if 2 * k + 1 < 2 * ((s.rows.toNat * s.columns.toNat) / 8) - 1 then .body else .ftr } }

/-- R182: the three footer steps emit ETX and the two characters of `K`, add none of them to ACC, compute `S` and `K` once,
and end the build: the
command that started it answers `Ok`, a `BUILD` with `F` as its payload, a `SEND` with `F` in PENDING (R175, R183). The field
that remembers which command it is, and those that hold `F`, `S` and `K`, are the model's (log entry 13). -/
def Obligations.FooterStepsEmitEtxAndCheck : Prop :=
  ∀ s : State, s.packer.phase = .ftr →
    (s.packer.pos = 0 → stepPacker s = .next { s with packer := { s.packer with
        out := s.packer.out ++ [0x03]
        masked := BitVec.ofNat 8 (s.packer.acc.toNat % 256)
        check := BitVec.ofNat 8 (((s.packer.acc.toNat % 256 ^^^ 0xFF) + 1) % 256)
        pos := 1 } })
    ∧ (s.packer.pos = 1 → stepPacker s = .next { s with packer := { s.packer with
        out := s.packer.out ++ [Spec.hexCode (s.packer.check.toNat / 16)], pos := 2 } })
    ∧ (s.packer.pos = 2 → ∃ t, stepPacker s = .next t
      ∧ t.packer = { s.packer with
          out := s.packer.out ++ [Spec.hexCode (s.packer.check.toNat % 16)], pos := 0, phase := .idle }
      ∧ t = { s with
          packer := t.packer
          pending := if s.packer.owner = .send then some t.packer.out else s.pending
          responses := s.responses ++ [⟨.ok, if s.packer.owner = .send then [] else t.packer.out⟩] })

/-- R176: PHASE moves only along IDLE, HDR, BODY, FTR, IDLE, or from HDR to FTR when the body is empty, over every step of
the machine; no command sets PHASE or POS. -/
def Obligations.PhaseMovesInOrder : Prop :=
  (∀ s t : State, step s = .next t → t.packer.phase = s.packer.phase
    ∨ (s.packer.phase = .idle ∧ t.packer.phase = .hdr)
    ∨ (s.packer.phase = .hdr ∧ t.packer.phase = .body ∧ (s.rows.toNat * s.columns.toNat) / 8 ≠ 0)
    ∨ (s.packer.phase = .hdr ∧ t.packer.phase = .ftr ∧ (s.rows.toNat * s.columns.toNat) / 8 = 0)
    ∨ (s.packer.phase = .body ∧ t.packer.phase = .ftr)
    ∨ (s.packer.phase = .ftr ∧ t.packer.phase = .idle))
  ∧ ∀ (i : Instr) (s t : State), exec i s = .next t → t.packer.phase = s.packer.phase ∧ t.packer.pos = s.packer.pos

/-- While PHASE is not IDLE the port accepts no command: a command presented waits where it is, and the step reads neither
it nor changes the bitmap, the geometry, CONFIGURED, the transport or TXLOG (R189). That it waits at the head of the list is
the model's choice (log entry 2). -/
def Obligations.CommandsWaitDuringABuild : Prop :=
  ∀ (s t : State) (w : CommandWord) (rest : List Input), s.packer.phase ≠ .idle →
    (s.inputs = .command w :: rest ∨ s.inputs = .serialCommand w :: rest) → step s = .next t →
    t.inputs = s.inputs ∧ t.bm = s.bm ∧ t.address = s.address ∧ t.columns = s.columns ∧ t.rows = s.rows
      ∧ t.configured = s.configured ∧ t.tstate = s.tstate ∧ t.txlog = s.txlog

/-- The transport's steps and `@fire` change TSTATE, PENDING and TXLOG only, so an event during a build touches none of the
build's state (60_exceptions.md R236, R237, R189). -/
def Obligations.EventsTouchOnlyTransportState : Prop :=
  ∀ (e : Event) (s t : State), stepEvent e s = .next t →
    t = { s with tstate := t.tstate, pending := t.pending, txlog := t.txlog }

/-- R190, R183: the byte-by-byte build agrees with the command. A `BUILD`, or a `SEND` with a ready transport and nothing in
flight, on a configured block with a frame `f`, presented at the byte level, runs its start and then exactly `8 + 2N` steps,
leaves `f` in `F` with PHASE at IDLE, and leaves every other piece of state as the atomic command leaves it. The byte-level
offer, the field that holds `F` and the head of the list that waits are the model's (log entries 14, 13, 2). -/
def Obligations.ByteLevelBuildAgreesWithTheCommand : Prop :=
  ∀ (s : State) (w : CommandWord) (rest : List Input) (i : Instr) (f : List Byte),
    s.packer.phase = .idle → s.configured = true → s.frame = some f → decode w = .ok i →
    (i = .build ∨ (i = .send ∧ s.tstate = .ready ∧ s.pending = none)) →
    s.inputs = .serialCommand w :: rest →
    (rest = [] ∨ ∃ v tail, rest = .command v :: tail ∨ rest = .serialCommand v :: tail) →
    ∃ t p, exec i { s with inputs := rest } = .next t
      ∧ Sys2Proof.core.run (1 + (8 + 2 * ((s.rows.toNat * s.columns.toNat) / 8))) s = .next { t with packer := p }
      ∧ p.out = f ∧ p.phase = .idle
end

