-- ==== Sys2Proof/Laws/Checksum.lean ====
section
/-! SUPPORT. The checksum accumulator's 16-bit register against the sum over the natural numbers. -/

namespace Sys2Proof

theorem sumBytes_nil : sumBytes [] = 0 := rfl

theorem sumBytes_cons (b : Byte) (l : List Byte) : sumBytes (b :: l) = b.toNat + sumBytes l := by
  simp [sumBytes]

theorem sumBytes_append (l₁ l₂ : List Byte) : sumBytes (l₁ ++ l₂) = sumBytes l₁ + sumBytes l₂ := by
  simp [sumBytes]

/-- A sum of bytes each at most `c`. -/
theorem sumBytes_le (l : List Byte) (c : Nat) (h : ∀ b ∈ l, b.toNat ≤ c) : sumBytes l ≤ c * l.length := by
  induction l with
  | nil => simp [sumBytes]
  | cons b l ih =>
    have hb := h b (by simp)
    have hl := ih (fun b hb => h b (by simp [hb]))
    rw [sumBytes_cons, List.length_cons, Nat.mul_succ]; omega

namespace Machine

theorem csaAdd_toNat (acc : BitVec 16) (b : Byte) : (csaAdd acc b).toNat = (acc.toNat + b.toNat) % 65536 := by
  have hb : b.toNat < 65536 := by have := b.isLt; omega
  simp [csaAdd, BitVec.toNat_add, BitVec.toNat_setWidth, Nat.mod_eq_of_lt hb]

theorem csaFold_toNat (acc : BitVec 16) (bytes : List Byte) :
    (bytes.foldl csaAdd acc).toNat = (acc.toNat + sumBytes bytes) % 65536 := by
  induction bytes generalizing acc with
  | nil => have := acc.isLt; simp only [List.foldl_nil, sumBytes_nil]; omega
  | cons b l ih => rw [List.foldl_cons, ih, csaAdd_toNat, sumBytes_cons]; omega

/-- `ACC` is the sum with the bias, in 16 bits (43_checksum_accumulator.md R161, R162). -/
theorem csaSum_toNat (bytes : List Byte) : (csaSum bytes).toNat = (sumBytes bytes + 1) % 65536 := by
  rw [csaSum, csaFold_toNat, csaInit, Nat.add_comm]
  rfl

theorem csaSum_append_one (bytes : List Byte) (b : Byte) : csaSum (bytes ++ [b]) = csaAdd (csaSum bytes) b := by
  simp [csaSum]

theorem csaSum_nil : csaSum [] = csaInit := rfl

/-- The masked sum taken from `ACC` is the one over the natural numbers (R163). -/
theorem csaMasked_csaSum (bytes : List Byte) : csaMasked (csaSum bytes) = maskedSum bytes := by
  apply BitVec.eq_of_toNat_eq
  rw [csaMasked, BitVec.extractLsb'_toNat, csaSum_toNat, maskedSum, BitVec.toNat_ofNat, Config.CSUM_BIAS]
  simp only [Nat.shiftRight_zero]
  omega

/-- The check value as a number (R164). -/
theorem checkValue_toNat (s : Byte) : (checkValue s).toNat = ((s.toNat ^^^ 0xFF) + 1) % 256 := by
  simp [checkValue, BitVec.toNat_add, BitVec.toNat_xor]

theorem maskedSum_toNat (bytes : List Byte) : (maskedSum bytes).toNat = (sumBytes bytes + 1) % 256 := by
  rw [maskedSum, BitVec.toNat_ofNat, Config.CSUM_BIAS]; omega

/-- The hardware's check value is `K` of 42_bitmap_to_frame_encoder.md R145. -/
theorem checkValue_maskedSum_toNat (bytes : List Byte) :
    (checkValue (maskedSum bytes)).toNat = Spec.checkOfSum (sumBytes bytes) := by
  rw [checkValue_toNat, maskedSum_toNat, Spec.checkOfSum]

/-- `S ^ 0xFF` is `255 - S` on a byte (R164). -/
theorem xor_ff (s : Byte) : s.toNat ^^^ 0xFF = 255 - s.toNat := by
  have : ∀ s : Byte, s.toNat ^^^ 0xFF = 255 - s.toNat := by decide
  exact this s

end Machine

end Sys2Proof
end

