-- ==== Sys2Proof/Laws/Decode.lean ====
section
/-! SUPPORT. The fields of a packed word, the word rebuilt from its fields, and what the decoder accepts, field by field. -/

namespace Sys2Proof

theorem packWord_getLsbD (op imm8 : Byte) (a b : Word32) (j : Nat) :
    (packWord op imm8 a b).getLsbD j =
      if j < 32 then b.getLsbD j else if j < 64 then a.getLsbD (j - 32)
      else if j < 72 then imm8.getLsbD (j - 64) else op.getLsbD (j - 72) := by
  change BitVec.getLsbD (w := 8 + 8 + 32 + 32) (op ++ imm8 ++ a ++ b) j = _
  simp only [BitVec.getLsbD_append]
  have h1 : j - 32 < 32 ↔ j < 64 := by omega
  have h3 : j - 32 - 32 = j - 64 := by omega
  have h4 : j - 64 - 8 = j - 72 := by omega
  have h5 : j - 64 < 8 ↔ j < 72 := by omega
  simp only [h1, h3, h4, h5]

theorem opField_packWord (op imm8 : Byte) (a b : Word32) : opField (packWord op imm8 a b) = op := by
  apply BitVec.eq_of_getLsbD_eq
  intro j hj
  simp only [opField, BitVec.getLsbD_extractLsb', packWord_getLsbD, hj, decide_true, Bool.true_and]
  rw [if_neg (by omega), if_neg (by omega), if_neg (by omega), Nat.add_sub_cancel_left]

theorem imm8Field_packWord (op imm8 : Byte) (a b : Word32) : imm8Field (packWord op imm8 a b) = imm8 := by
  apply BitVec.eq_of_getLsbD_eq
  intro j hj
  simp only [imm8Field, BitVec.getLsbD_extractLsb', packWord_getLsbD, hj, decide_true, Bool.true_and]
  rw [if_neg (by omega), if_neg (by omega), if_pos (by omega), Nat.add_sub_cancel_left]

theorem aField_packWord (op imm8 : Byte) (a b : Word32) : aField (packWord op imm8 a b) = a := by
  apply BitVec.eq_of_getLsbD_eq
  intro j hj
  simp only [aField, BitVec.getLsbD_extractLsb', packWord_getLsbD, hj, decide_true, Bool.true_and]
  rw [if_neg (by omega), if_pos (by omega), Nat.add_sub_cancel_left]

theorem bField_packWord (op imm8 : Byte) (a b : Word32) : bField (packWord op imm8 a b) = b := by
  apply BitVec.eq_of_getLsbD_eq
  intro j hj
  simp only [bField, BitVec.getLsbD_extractLsb', packWord_getLsbD, hj, decide_true, Bool.true_and, Nat.zero_add]
  rw [if_pos trivial]

/-- A word is its four fields. -/
theorem packWord_fields (w : CommandWord) : packWord (opField w) (imm8Field w) (aField w) (bField w) = w := by
  apply BitVec.eq_of_getLsbD_eq
  intro j hj
  rw [packWord_getLsbD]
  simp only [opField, imm8Field, aField, bField, BitVec.getLsbD_extractLsb']
  split
  · rename_i h; simp [h]
  · split
    · rename_i h1 h2
      rw [decide_eq_true (by omega), Bool.true_and, Nat.add_sub_cancel' (by omega)]
    · split
      · rename_i h1 h2 h3
        rw [decide_eq_true (by omega), Bool.true_and, Nat.add_sub_cancel' (by omega)]
      · rename_i h1 h2 h3
        rw [decide_eq_true (by omega), Bool.true_and, Nat.add_sub_cancel' (by omega)]

theorem ifZero_eq_ok (c : Bool) (op : Byte) (i j : Instr) :
    ifZero c op i = .ok j ↔ c = true ∧ i = j := by
  cases c <;> simp [ifZero]

/-- The low bit of `imm8` and the seven above it are the whole field. -/
theorem imm8_of_lit (v : Byte) (h : v.extractLsb' 1 7 = 0) : (v.extractLsb' 0 1).setWidth 8 = v := by
  have : ∀ v : Byte, v.extractLsb' 1 7 = 0 → (v.extractLsb' 0 1).setWidth 8 = v := by decide
  exact this v h

theorem lit_of_setWidth (v : BitVec 1) :
    (v.setWidth 8).extractLsb' 0 1 = v ∧ (v.setWidth 8).extractLsb' 1 7 = 0 := by
  have : ∀ v : BitVec 1, (v.setWidth 8).extractLsb' 0 1 = v ∧ (v.setWidth 8).extractLsb' 1 7 = 0 := by decide
  exact this v

/-- What each word the decoder accepts looks like, field by field: one case per command (30_encoding.md R82, R84). -/
theorem decode_cases (w : CommandWord) (i : Instr) (h : decode w = .ok i) :
    (opField w = 0x01 ∧ i = .config (imm8Field w) (aField w) (bField w))
    ∨ (opField w = 0x02 ∧ imm8Field w = 0 ∧ aField w = 0 ∧ bField w = 0 ∧ i = .clear)
    ∨ (opField w = 0x03 ∧ imm8Field w = 0 ∧ aField w = 0 ∧ bField w = 0 ∧ i = .fill)
    ∨ (opField w = 0x04 ∧ setdotUnused w = 0 ∧ i = .setdot (aField w) (bField w) (litField w))
    ∨ (opField w = 0x05 ∧ imm8Field w = 0 ∧ aField w = 0 ∧ bField w = 0 ∧ i = .build)
    ∨ (opField w = 0x06 ∧ imm8Field w = 0 ∧ aField w = 0 ∧ bField w = 0 ∧ i = .send)
    ∨ (opField w = 0x07 ∧ imm8Field w = 0 ∧ bField w = 0 ∧ i = .encode (aField w)) := by
  unfold decode at h
  split at h
  · rename_i h1
    exact .inl ⟨h1, by simpa using h.symm⟩
  split at h
  · rename_i h1
    simp only [ifZero_eq_ok, Bool.and_eq_true, beq_iff_eq] at h
    obtain ⟨⟨⟨x, y⟩, z⟩, rfl⟩ := h
    exact .inr (.inl ⟨h1, x, y, z, rfl⟩)
  split at h
  · rename_i h1
    simp only [ifZero_eq_ok, Bool.and_eq_true, beq_iff_eq] at h
    obtain ⟨⟨⟨x, y⟩, z⟩, rfl⟩ := h
    exact .inr (.inr (.inl ⟨h1, x, y, z, rfl⟩))
  split at h
  · rename_i h1
    simp only [ifZero_eq_ok, beq_iff_eq] at h
    obtain ⟨x, rfl⟩ := h
    exact .inr (.inr (.inr (.inl ⟨h1, x, rfl⟩)))
  split at h
  · rename_i h1
    simp only [ifZero_eq_ok, Bool.and_eq_true, beq_iff_eq] at h
    obtain ⟨⟨⟨x, y⟩, z⟩, rfl⟩ := h
    exact .inr (.inr (.inr (.inr (.inl ⟨h1, x, y, z, rfl⟩))))
  split at h
  · rename_i h1
    simp only [ifZero_eq_ok, Bool.and_eq_true, beq_iff_eq] at h
    obtain ⟨⟨⟨x, y⟩, z⟩, rfl⟩ := h
    exact .inr (.inr (.inr (.inr (.inr (.inl ⟨h1, x, y, z, rfl⟩)))))
  split at h
  · rename_i h1
    simp only [ifZero_eq_ok, Bool.and_eq_true, beq_iff_eq] at h
    obtain ⟨⟨x, y⟩, rfl⟩ := h
    exact .inr (.inr (.inr (.inr (.inr (.inr ⟨h1, x, y, rfl⟩)))))
  · exact absurd h (by simp)

end Sys2Proof
end

