-- ==== Sys2Proof/Laws/Memory.lean ====
section
/-! SUPPORT. The laws of the bitmap: read after write, the canonical form and who keeps it, extensionality. -/

namespace Sys2Proof.Machine

/-! ## Single bits -/

theorem bit_cases (v : BitVec 1) : v = 0 ∨ v = 1 := by
  have : ∀ v : BitVec 1, v = 0 ∨ v = 1 := by decide
  exact this v

theorem bit_eq_one_of_ne_zero {v : BitVec 1} (h : v ≠ 0) : v = 1 := (bit_cases v).resolve_left h

theorem bit_eq_ofBool (v : BitVec 1) : v = BitVec.ofBool (v.toNat.testBit 0) := by
  have : ∀ v : BitVec 1, v = BitVec.ofBool (v.toNat.testBit 0) := by decide
  exact this v

/-! ## Reading -/

theorem Memory.read_nil (i : Nat) : Memory.read [] i = 0 := rfl

theorem Memory.read_cons (j : Nat) (v : BitVec 1) (m : Memory) (i : Nat) :
    Memory.read ((j, v) :: m) i = if j = i then v else Memory.read m i := rfl

/-- A cell below every listed one is unlit. -/
theorem Memory.read_of_all_gt (m : Memory) (i : Nat) (h : ∀ c ∈ m, i < c.1) : m.read i = 0 := by
  induction m with
  | nil => rfl
  | cons c m ih =>
    obtain ⟨j, v⟩ := c
    have hj : i < j := h (j, v) (by simp)
    rw [Memory.read_cons, if_neg (by omega)]
    exact ih (fun c hc => h c (by simp [hc]))

/-- A cell outside the bitmap's size is unlit when every listed cell lies inside. -/
theorem Memory.read_of_within (m : Memory) (n i : Nat) (h : m.within n = true) (hi : n ≤ i) : m.read i = 0 := by
  induction m with
  | nil => rfl
  | cons c m ih =>
    obtain ⟨j, v⟩ := c
    simp only [Memory.within, List.all_cons, Bool.and_eq_true, decide_eq_true_eq] at h
    rw [Memory.read_cons, if_neg (by omega)]
    exact ih h.2

/-! ## The canonical form -/

theorem Memory.wf_cons (j : Nat) (v : BitVec 1) (m : Memory) :
    Memory.wf ((j, v) :: m) = true ↔ v ≠ 0 ∧ (∀ c ∈ m, j < c.1) ∧ m.wf = true := by
  simp only [Memory.wf, Bool.and_eq_true, bne_iff_ne, ne_eq, List.all_eq_true, decide_eq_true_eq, and_assoc]

theorem Memory.mem_write (m : Memory) (i : Nat) (v : BitVec 1) :
    ∀ c ∈ m.write i v, c.1 = i ∨ c ∈ m := by
  induction m with
  | nil => intro c hc; simp only [Memory.write] at hc; split at hc <;> simp_all
  | cons d m ih =>
    obtain ⟨j, u⟩ := d
    intro c hc
    simp only [Memory.write] at hc
    split at hc
    · split at hc
      · exact .inr hc
      · rcases List.mem_cons.1 hc with h | h
        · exact .inl (by rw [h])
        · exact .inr h
    · split at hc
      · split at hc
        · exact .inr (by simp [hc])
        · rcases List.mem_cons.1 hc with h | h
          · exact .inl (by rw [h])
          · exact .inr (by simp [h])
      · rcases List.mem_cons.1 hc with h | h
        · exact .inr (by simp [h])
        · rcases ih c h with h | h
          · exact .inl h
          · exact .inr (by simp [h])

/-- Setting a cell keeps the canonical form. -/
theorem Memory.write_wf (m : Memory) (i : Nat) (v : BitVec 1) (h : m.wf = true) : (m.write i v).wf = true := by
  induction m with
  | nil => simp only [Memory.write]; split <;> simp_all [Memory.wf]
  | cons d m ih =>
    obtain ⟨j, u⟩ := d
    obtain ⟨hu, hall, hm⟩ := (Memory.wf_cons j u m).1 h
    simp only [Memory.write]
    split
    · rename_i hij
      split
      · exact h
      · rename_i hv
        refine (Memory.wf_cons _ _ _).2 ⟨hv, ?_, h⟩
        intro c hc
        rcases List.mem_cons.1 hc with rfl | hc
        · exact hij
        · have := hall c hc; omega
    · split
      · rename_i hij
        split
        · exact hm
        · rename_i hv
          exact (Memory.wf_cons _ _ _).2 ⟨hv, fun c hc => by have := hall c hc; omega, hm⟩
      · rename_i hlt hne
        refine (Memory.wf_cons _ _ _).2 ⟨hu, ?_, ih hm⟩
        intro c hc
        rcases Memory.mem_write m i v c hc with h | h
        · omega
        · exact hall c h

/-- Read after write. -/
theorem Memory.read_write (m : Memory) (i k : Nat) (v : BitVec 1) (h : m.wf = true) :
    (m.write i v).read k = if k = i then v else m.read k := by
  induction m with
  | nil =>
    simp only [Memory.write]
    split
    · rename_i hv; subst hv; simp [Memory.read_nil]
    · simp only [Memory.read_cons, Memory.read_nil, eq_comm]
  | cons d m ih =>
    obtain ⟨j, u⟩ := d
    obtain ⟨hu, hall, hm⟩ := (Memory.wf_cons j u m).1 h
    simp only [Memory.write]
    split
    · rename_i hij
      have hgt : ∀ c ∈ ((j, u) :: m : Memory), i < c.1 := by
        intro c hc
        rcases List.mem_cons.1 hc with rfl | hc
        · exact hij
        · have := hall c hc; omega
      split
      · rename_i hv
        split
        · rename_i hk; rw [hk, hv]; exact Memory.read_of_all_gt _ _ hgt
        · rfl
      · rw [Memory.read_cons]
        by_cases hk : k = i
        · rw [if_pos hk.symm, if_pos hk]
        · rw [if_neg (fun e => hk e.symm), if_neg hk]
    · split
      · rename_i hij
        have hgt : Memory.read m i = 0 := Memory.read_of_all_gt m i (fun c hc => by have := hall c hc; omega)
        split
        · rename_i hv
          by_cases hk : k = i
          · rw [if_pos hk, hk, hgt, hv]
          · rw [if_neg hk, Memory.read_cons, if_neg (by omega)]
        · by_cases hk : k = i
          · rw [if_pos hk, Memory.read_cons, if_pos hk.symm]
          · rw [if_neg hk, Memory.read_cons, Memory.read_cons, if_neg (by omega), if_neg (by omega)]
      · rw [Memory.read_cons, Memory.read_cons, ih hm]
        by_cases hj : j = k
        · rw [if_pos hj, if_pos hj, if_neg (by omega)]
        · rw [if_neg hj, if_neg hj]

theorem Memory.write_within (m : Memory) (i n : Nat) (v : BitVec 1) (h : m.within n = true) (hi : i < n) :
    (m.write i v).within n = true := by
  simp only [Memory.within, List.all_eq_true, decide_eq_true_eq] at *
  intro c hc
  rcases Memory.mem_write m i v c hc with h' | h'
  · omega
  · exact h c h'

/-- Canonical memories that read alike are the same list. -/
theorem Memory.ext_of_read (m₁ m₂ : Memory) (h₁ : m₁.wf = true) (h₂ : m₂.wf = true)
    (h : ∀ i, m₁.read i = m₂.read i) : m₁ = m₂ := by
  induction m₁ generalizing m₂ with
  | nil =>
    cases m₂ with
    | nil => rfl
    | cons d m =>
      obtain ⟨j, u⟩ := d
      have := h j
      rw [Memory.read_nil, Memory.read_cons, if_pos rfl] at this
      exact absurd this.symm ((Memory.wf_cons j u m).1 h₂).1
  | cons d m ih =>
    obtain ⟨j, u⟩ := d
    obtain ⟨hu, hall, hm⟩ := (Memory.wf_cons j u m).1 h₁
    cases m₂ with
    | nil =>
      have := h j
      rw [Memory.read_nil, Memory.read_cons, if_pos rfl] at this
      exact absurd this hu
    | cons d' m' =>
      obtain ⟨j', u'⟩ := d'
      obtain ⟨hu', hall', hm'⟩ := (Memory.wf_cons j' u' m').1 h₂
      have hz : ∀ i, i < j → Memory.read ((j, u) :: m) i = 0 := fun i hi =>
        Memory.read_of_all_gt _ _ (fun c hc => by
          rcases List.mem_cons.1 hc with rfl | hc
          · exact hi
          · have := hall c hc; omega)
      have hz' : ∀ i, i < j' → Memory.read ((j', u') :: m') i = 0 := fun i hi =>
        Memory.read_of_all_gt _ _ (fun c hc => by
          rcases List.mem_cons.1 hc with rfl | hc
          · exact hi
          · have := hall' c hc; omega)
      have hjj : j = j' := by
        rcases Nat.lt_trichotomy j j' with hlt | heq | hgt
        · have h1 := h j
          rw [hz' j hlt, Memory.read_cons, if_pos rfl] at h1
          exact absurd h1 hu
        · exact heq
        · have h1 := h j'
          rw [hz j' hgt, Memory.read_cons, if_pos rfl] at h1
          exact absurd h1.symm hu'
      subst hjj
      have huu : u = u' := by have := h j; simpa [Memory.read_cons] using this
      subst huu
      have : m = m' := ih m' hm hm' (fun i => by
        by_cases hi : j = i
        · subst hi
          rw [Memory.read_of_all_gt m j hall, Memory.read_of_all_gt m' j hall']
        · have := h i
          rwa [Memory.read_cons, Memory.read_cons, if_neg hi, if_neg hi] at this)
      rw [this]

/-! ## Whole bitmaps -/

theorem Memory.replicate_zero (n : Nat) : Memory.replicate n 0 = [] := rfl

theorem Memory.mem_replicate (n : Nat) (v : BitVec 1) : ∀ c ∈ Memory.replicate n v, c.1 < n ∧ c.2 = v ∧ v ≠ 0 := by
  intro c hc
  simp only [Memory.replicate] at hc
  split at hc
  · simp at hc
  · simp only [List.mem_map, List.mem_range] at hc
    obtain ⟨i, hi, rfl⟩ := hc
    exact ⟨hi, rfl, by assumption⟩

theorem Memory.replicate_within (n : Nat) (v : BitVec 1) : (Memory.replicate n v).within n = true := by
  simp only [Memory.within, List.all_eq_true, decide_eq_true_eq]
  exact fun c hc => (Memory.mem_replicate n v c hc).1

theorem Memory.wf_append_one (m : Memory) (i : Nat) (v : BitVec 1) (h : m.wf = true) (hi : ∀ c ∈ m, c.1 < i)
    (hv : v ≠ 0) : Memory.wf (m ++ [(i, v)]) = true := by
  induction m with
  | nil => exact (Memory.wf_cons _ _ _).2 ⟨hv, by simp, rfl⟩
  | cons d m ih =>
    obtain ⟨j, u⟩ := d
    obtain ⟨hu, hall, hm⟩ := (Memory.wf_cons j u m).1 h
    refine (Memory.wf_cons _ _ _).2 ⟨hu, ?_, ih hm (fun c hc => hi c (by simp [hc]))⟩
    intro c hc
    rcases List.mem_append.1 hc with hc | hc
    · exact hall c hc
    · have : c = (i, v) := by simpa using hc
      have hj := hi (j, u) (by simp)
      simpa [this] using hj

theorem Memory.read_append_one (m : Memory) (i k : Nat) (v : BitVec 1) (hi : ∀ c ∈ m, c.1 < i) :
    Memory.read (m ++ [(i, v)]) k = if k = i then v else m.read k := by
  induction m with
  | nil => simp only [List.nil_append, Memory.read_cons, Memory.read_nil, eq_comm]
  | cons d m ih =>
    obtain ⟨j, u⟩ := d
    have hj : j < i := hi (j, u) (by simp)
    rw [List.cons_append, Memory.read_cons, Memory.read_cons, ih (fun c hc => hi c (by simp [hc]))]
    by_cases h : j = k
    · rw [if_pos h, if_pos h, if_neg (by omega)]
    · rw [if_neg h, if_neg h]

theorem Memory.replicate_succ (n : Nat) (v : BitVec 1) (hv : v ≠ 0) :
    Memory.replicate (n + 1) v = Memory.replicate n v ++ [(n, v)] := by
  rw [Memory.replicate, Memory.replicate, if_neg hv, if_neg hv, List.range_succ, List.map_append]
  rfl

theorem Memory.replicate_wf (n : Nat) (v : BitVec 1) : (Memory.replicate n v).wf = true := by
  by_cases hv : v = 0
  · subst hv; rfl
  · induction n with
    | zero => simp [Memory.replicate, Memory.wf]
    | succ n ih =>
      rw [Memory.replicate_succ n v hv]
      exact Memory.wf_append_one _ _ _ ih (fun c hc => (Memory.mem_replicate n v c hc).1) hv

theorem Memory.read_replicate (n : Nat) (v : BitVec 1) (i : Nat) :
    (Memory.replicate n v).read i = if i < n then v else 0 := by
  by_cases hv : v = 0
  · subst hv; rw [Memory.replicate_zero, Memory.read_nil]; split <;> rfl
  · induction n with
    | zero => simp [Memory.replicate, Memory.read]
    | succ n ih =>
      rw [Memory.replicate_succ n v hv,
        Memory.read_append_one _ _ _ _ (fun c hc => (Memory.mem_replicate n v c hc).1), ih]
      by_cases h1 : i = n
      · rw [if_pos h1, if_pos (by omega)]
      · rw [if_neg h1]
        by_cases h2 : i < n
        · rw [if_pos h2, if_pos (by omega)]
        · rw [if_neg h2, if_neg (by omega)]

/-! ## MemWrite and MemRead (20_memory.md R55, R56) -/

theorem Memory.memWrite_one (m : Memory) (i : Nat) (v : BitVec 1) : m.memWrite i 1 v.toNat = m.write i v := by
  simp only [Memory.memWrite, List.range_one, List.foldl_cons, List.foldl_nil, Nat.add_zero]
  rw [← bit_eq_ofBool]

theorem Memory.memWrite_succ (m : Memory) (i n v : Nat) :
    m.memWrite i (n + 1) v = (m.memWrite i n v).write (i + n) (BitVec.ofBool (v.testBit n)) := by
  simp [Memory.memWrite, List.range_succ]

theorem Memory.memWrite_wf (m : Memory) (i n v : Nat) (h : m.wf = true) : (m.memWrite i n v).wf = true := by
  induction n with
  | zero => exact h
  | succ n ih => rw [Memory.memWrite_succ]; exact Memory.write_wf _ _ _ ih

theorem Memory.memRead_succ (m : Memory) (i n : Nat) :
    m.memRead i (n + 1) = m.memRead i n + (m.read (i + n)).toNat * 2 ^ n := by
  simp [Memory.memRead, List.range_succ, List.sum_append]

theorem Memory.memRead_lt (m : Memory) (i n : Nat) : m.memRead i n < 2 ^ n := by
  induction n with
  | zero => simp [Memory.memRead]
  | succ n ih =>
    rw [Memory.memRead_succ]
    have hb : (m.read (i + n)).toNat < 2 := by have := (m.read (i + n)).isLt; simpa using this
    have : (m.read (i + n)).toNat * 2 ^ n ≤ 1 * 2 ^ n := Nat.mul_le_mul_right _ (by omega)
    rw [Nat.pow_succ]; omega

/-- `MemRead` depends on the cells it reads and on nothing else. -/
theorem Memory.memRead_congr (m₁ m₂ : Memory) (i n : Nat)
    (h : ∀ j, j < n → m₁.read (i + j) = m₂.read (i + j)) : m₁.memRead i n = m₂.memRead i n := by
  induction n with
  | zero => rfl
  | succ n ih =>
    rw [Memory.memRead_succ, Memory.memRead_succ, ih (fun j hj => h j (by omega)), h n (by omega)]

end Sys2Proof.Machine
end

