-- ==== Sys2Proof/Laws/State.lean ====
section
/-! SUPPORT. One lemma per field per update of State, true by rfl, so that no proof unfolds a record update. -/

namespace Sys2Proof.Machine

variable (s : State)

@[simp] theorem State.done_eq : s.done = s.respond .ok [] := rfl
@[simp] theorem State.raise_eq (st : Status) : s.raise st = s.respond st [] := rfl

@[simp] theorem State.respond_configured (st : Status) (p : List Byte) : (s.respond st p).configured = s.configured := rfl
@[simp] theorem State.respond_address (st : Status) (p : List Byte) : (s.respond st p).address = s.address := rfl
@[simp] theorem State.respond_columns (st : Status) (p : List Byte) : (s.respond st p).columns = s.columns := rfl
@[simp] theorem State.respond_rows (st : Status) (p : List Byte) : (s.respond st p).rows = s.rows := rfl
@[simp] theorem State.respond_bm (st : Status) (p : List Byte) : (s.respond st p).bm = s.bm := rfl
@[simp] theorem State.respond_tstate (st : Status) (p : List Byte) : (s.respond st p).tstate = s.tstate := rfl
@[simp] theorem State.respond_pending (st : Status) (p : List Byte) : (s.respond st p).pending = s.pending := rfl
@[simp] theorem State.respond_txlog (st : Status) (p : List Byte) : (s.respond st p).txlog = s.txlog := rfl
@[simp] theorem State.respond_packer (st : Status) (p : List Byte) : (s.respond st p).packer = s.packer := rfl
@[simp] theorem State.respond_responses (st : Status) (p : List Byte) : (s.respond st p).responses = s.responses ++ [⟨st, p⟩] := rfl
@[simp] theorem State.respond_inputs (st : Status) (p : List Byte) : (s.respond st p).inputs = s.inputs := rfl

@[simp] theorem State.construct_configured (a : Byte) (c r : Word32) : (s.construct a c r).configured = true := rfl
@[simp] theorem State.construct_address (a : Byte) (c r : Word32) : (s.construct a c r).address = a := rfl
@[simp] theorem State.construct_columns (a : Byte) (c r : Word32) : (s.construct a c r).columns = c := rfl
@[simp] theorem State.construct_rows (a : Byte) (c r : Word32) : (s.construct a c r).rows = r := rfl
@[simp] theorem State.construct_bm (a : Byte) (c r : Word32) : (s.construct a c r).bm = Memory.replicate (c.toNat * r.toNat) 0 := rfl
@[simp] theorem State.construct_tstate (a : Byte) (c r : Word32) : (s.construct a c r).tstate = s.tstate := rfl
@[simp] theorem State.construct_pending (a : Byte) (c r : Word32) : (s.construct a c r).pending = s.pending := rfl
@[simp] theorem State.construct_txlog (a : Byte) (c r : Word32) : (s.construct a c r).txlog = s.txlog := rfl
@[simp] theorem State.construct_packer (a : Byte) (c r : Word32) : (s.construct a c r).packer = s.packer := rfl
@[simp] theorem State.construct_responses (a : Byte) (c r : Word32) : (s.construct a c r).responses = s.responses := rfl
@[simp] theorem State.construct_inputs (a : Byte) (c r : Word32) : (s.construct a c r).inputs = s.inputs := rfl

@[simp] theorem State.writeBm_configured (m : Memory) : (s.writeBm m).configured = s.configured := rfl
@[simp] theorem State.writeBm_address (m : Memory) : (s.writeBm m).address = s.address := rfl
@[simp] theorem State.writeBm_columns (m : Memory) : (s.writeBm m).columns = s.columns := rfl
@[simp] theorem State.writeBm_rows (m : Memory) : (s.writeBm m).rows = s.rows := rfl
@[simp] theorem State.writeBm_bm (m : Memory) : (s.writeBm m).bm = m := rfl
@[simp] theorem State.writeBm_tstate (m : Memory) : (s.writeBm m).tstate = s.tstate := rfl
@[simp] theorem State.writeBm_pending (m : Memory) : (s.writeBm m).pending = s.pending := rfl
@[simp] theorem State.writeBm_txlog (m : Memory) : (s.writeBm m).txlog = s.txlog := rfl
@[simp] theorem State.writeBm_packer (m : Memory) : (s.writeBm m).packer = s.packer := rfl
@[simp] theorem State.writeBm_responses (m : Memory) : (s.writeBm m).responses = s.responses := rfl
@[simp] theorem State.writeBm_inputs (m : Memory) : (s.writeBm m).inputs = s.inputs := rfl

@[simp] theorem State.writeTState_configured (t : TState) : (s.writeTState t).configured = s.configured := rfl
@[simp] theorem State.writeTState_address (t : TState) : (s.writeTState t).address = s.address := rfl
@[simp] theorem State.writeTState_columns (t : TState) : (s.writeTState t).columns = s.columns := rfl
@[simp] theorem State.writeTState_rows (t : TState) : (s.writeTState t).rows = s.rows := rfl
@[simp] theorem State.writeTState_bm (t : TState) : (s.writeTState t).bm = s.bm := rfl
@[simp] theorem State.writeTState_tstate (t : TState) : (s.writeTState t).tstate = t := rfl
@[simp] theorem State.writeTState_pending (t : TState) : (s.writeTState t).pending = s.pending := rfl
@[simp] theorem State.writeTState_txlog (t : TState) : (s.writeTState t).txlog = s.txlog := rfl
@[simp] theorem State.writeTState_packer (t : TState) : (s.writeTState t).packer = s.packer := rfl
@[simp] theorem State.writeTState_responses (t : TState) : (s.writeTState t).responses = s.responses := rfl
@[simp] theorem State.writeTState_inputs (t : TState) : (s.writeTState t).inputs = s.inputs := rfl

@[simp] theorem State.writePending_configured (p : Option (List Byte)) : (s.writePending p).configured = s.configured := rfl
@[simp] theorem State.writePending_address (p : Option (List Byte)) : (s.writePending p).address = s.address := rfl
@[simp] theorem State.writePending_columns (p : Option (List Byte)) : (s.writePending p).columns = s.columns := rfl
@[simp] theorem State.writePending_rows (p : Option (List Byte)) : (s.writePending p).rows = s.rows := rfl
@[simp] theorem State.writePending_bm (p : Option (List Byte)) : (s.writePending p).bm = s.bm := rfl
@[simp] theorem State.writePending_tstate (p : Option (List Byte)) : (s.writePending p).tstate = s.tstate := rfl
@[simp] theorem State.writePending_pending (p : Option (List Byte)) : (s.writePending p).pending = p := rfl
@[simp] theorem State.writePending_txlog (p : Option (List Byte)) : (s.writePending p).txlog = s.txlog := rfl
@[simp] theorem State.writePending_packer (p : Option (List Byte)) : (s.writePending p).packer = s.packer := rfl
@[simp] theorem State.writePending_responses (p : Option (List Byte)) : (s.writePending p).responses = s.responses := rfl
@[simp] theorem State.writePending_inputs (p : Option (List Byte)) : (s.writePending p).inputs = s.inputs := rfl

@[simp] theorem State.transmit_configured (f : List Byte) : (s.transmit f).configured = s.configured := rfl
@[simp] theorem State.transmit_address (f : List Byte) : (s.transmit f).address = s.address := rfl
@[simp] theorem State.transmit_columns (f : List Byte) : (s.transmit f).columns = s.columns := rfl
@[simp] theorem State.transmit_rows (f : List Byte) : (s.transmit f).rows = s.rows := rfl
@[simp] theorem State.transmit_bm (f : List Byte) : (s.transmit f).bm = s.bm := rfl
@[simp] theorem State.transmit_tstate (f : List Byte) : (s.transmit f).tstate = s.tstate := rfl
@[simp] theorem State.transmit_pending (f : List Byte) : (s.transmit f).pending = s.pending := rfl
@[simp] theorem State.transmit_txlog (f : List Byte) : (s.transmit f).txlog = s.txlog ++ f := rfl
@[simp] theorem State.transmit_packer (f : List Byte) : (s.transmit f).packer = s.packer := rfl
@[simp] theorem State.transmit_responses (f : List Byte) : (s.transmit f).responses = s.responses := rfl
@[simp] theorem State.transmit_inputs (f : List Byte) : (s.transmit f).inputs = s.inputs := rfl

@[simp] theorem State.writePacker_configured (p : Packer) : (s.writePacker p).configured = s.configured := rfl
@[simp] theorem State.writePacker_address (p : Packer) : (s.writePacker p).address = s.address := rfl
@[simp] theorem State.writePacker_columns (p : Packer) : (s.writePacker p).columns = s.columns := rfl
@[simp] theorem State.writePacker_rows (p : Packer) : (s.writePacker p).rows = s.rows := rfl
@[simp] theorem State.writePacker_bm (p : Packer) : (s.writePacker p).bm = s.bm := rfl
@[simp] theorem State.writePacker_tstate (p : Packer) : (s.writePacker p).tstate = s.tstate := rfl
@[simp] theorem State.writePacker_pending (p : Packer) : (s.writePacker p).pending = s.pending := rfl
@[simp] theorem State.writePacker_txlog (p : Packer) : (s.writePacker p).txlog = s.txlog := rfl
@[simp] theorem State.writePacker_packer (p : Packer) : (s.writePacker p).packer = p := rfl
@[simp] theorem State.writePacker_responses (p : Packer) : (s.writePacker p).responses = s.responses := rfl
@[simp] theorem State.writePacker_inputs (p : Packer) : (s.writePacker p).inputs = s.inputs := rfl

@[simp] theorem State.writeInputs_configured (i : List Input) : (s.writeInputs i).configured = s.configured := rfl
@[simp] theorem State.writeInputs_address (i : List Input) : (s.writeInputs i).address = s.address := rfl
@[simp] theorem State.writeInputs_columns (i : List Input) : (s.writeInputs i).columns = s.columns := rfl
@[simp] theorem State.writeInputs_rows (i : List Input) : (s.writeInputs i).rows = s.rows := rfl
@[simp] theorem State.writeInputs_bm (i : List Input) : (s.writeInputs i).bm = s.bm := rfl
@[simp] theorem State.writeInputs_tstate (i : List Input) : (s.writeInputs i).tstate = s.tstate := rfl
@[simp] theorem State.writeInputs_pending (i : List Input) : (s.writeInputs i).pending = s.pending := rfl
@[simp] theorem State.writeInputs_txlog (i : List Input) : (s.writeInputs i).txlog = s.txlog := rfl
@[simp] theorem State.writeInputs_packer (i : List Input) : (s.writeInputs i).packer = s.packer := rfl
@[simp] theorem State.writeInputs_responses (i : List Input) : (s.writeInputs i).responses = s.responses := rfl
@[simp] theorem State.writeInputs_inputs (i : List Input) : (s.writeInputs i).inputs = i := rfl

end Sys2Proof.Machine
end

