-- ==== Sys2Proof/Laws/Ops.lean ====
section
/-! SUPPORT. One lemma per meaning that says once everything it can do; provers cite it instead of unfolding. -/

namespace Sys2Proof.Machine

/-! ## The fields after painting the bitmap -/

@[simp] theorem State.paint_bm (s : State) (v : BitVec 1) :
    (s.paint v).bm = Memory.replicate (cellCount s.columns s.rows) v := by unfold State.paint; rfl
@[simp] theorem State.paint_configured (s : State) (v : BitVec 1) : (s.paint v).configured = s.configured := rfl
@[simp] theorem State.paint_address (s : State) (v : BitVec 1) : (s.paint v).address = s.address := rfl
@[simp] theorem State.paint_columns (s : State) (v : BitVec 1) : (s.paint v).columns = s.columns := rfl
@[simp] theorem State.paint_rows (s : State) (v : BitVec 1) : (s.paint v).rows = s.rows := rfl
@[simp] theorem State.paint_tstate (s : State) (v : BitVec 1) : (s.paint v).tstate = s.tstate := rfl
@[simp] theorem State.paint_pending (s : State) (v : BitVec 1) : (s.paint v).pending = s.pending := rfl
@[simp] theorem State.paint_txlog (s : State) (v : BitVec 1) : (s.paint v).txlog = s.txlog := rfl
@[simp] theorem State.paint_packer (s : State) (v : BitVec 1) : (s.paint v).packer = s.packer := rfl
@[simp] theorem State.paint_responses (s : State) (v : BitVec 1) : (s.paint v).responses = s.responses := rfl
@[simp] theorem State.paint_inputs (s : State) (v : BitVec 1) : (s.paint v).inputs = s.inputs := rfl

/-! ## The meanings -/

theorem fitsRows_iff (n : Nat) : fitsRows n = true ↔ n ≤ 0xFFFFFFFF := by
  rw [fitsRows, decide_eq_true_eq, Config.GEOM_MAX]

theorem fitsCapacity_iff (n : Nat) : fitsCapacity n = true ↔ n ≤ Config.CAP_CELLS := by
  simp only [fitsCapacity, Bool.or_eq_true, decide_eq_true_eq]
  have : Config.CAP_CELLS = 2040 + Config.capExtra := rfl
  have : Config.CAP_MIN = 2040 := rfl
  omega

theorem capCells_ge : 2040 ≤ Config.CAP_CELLS := by simp [Config.CAP_CELLS, Config.CAP_MIN]

/-- `round8` is the least multiple of 8 not below its argument, as the division reads (41_bitmap_store.md R127). -/
theorem round8_eq (r : Nat) : round8 r = 8 * ((r + 7) / 8) := rfl

theorem execConfig_cases (address : Byte) (columns rowsReq : Word32) (s : State) :
    (round8 rowsReq.toNat ≤ 0xFFFFFFFF ∧ columns.toNat * round8 rowsReq.toNat ≤ Config.CAP_CELLS
      ∧ execConfig address columns rowsReq s
        = .next (s.construct address columns (BitVec.ofNat 32 (round8 rowsReq.toNat))).done)
    ∨ ((0xFFFFFFFF < round8 rowsReq.toNat ∨ Config.CAP_CELLS < columns.toNat * round8 rowsReq.toNat)
      ∧ execConfig address columns rowsReq s = .next (s.raise .invalidArgument)) := by
  unfold execConfig
  split
  · rename_i h
    exact .inr ⟨.inl (by rw [← Bool.not_eq_true, fitsRows_iff] at h; omega), rfl⟩
  · rename_i h
    rw [Bool.not_eq_false, fitsRows_iff] at h
    split
    · rename_i h2
      exact .inr ⟨.inr (by rw [← Bool.not_eq_true, fitsCapacity_iff] at h2; omega), rfl⟩
    · rename_i h2
      exact .inl ⟨h, by rwa [Bool.not_eq_false, fitsCapacity_iff] at h2, rfl⟩

theorem execClear_cases (s : State) :
    (s.configured = false ∧ execClear s = .next (s.raise .notConfigured))
    ∨ (s.configured = true ∧ execClear s = .next (s.paint 0).done) := by
  unfold execClear; split <;> simp_all

theorem execFill_cases (s : State) :
    (s.configured = false ∧ execFill s = .next (s.raise .notConfigured))
    ∨ (s.configured = true ∧ execFill s = .next (s.paint 1).done) := by
  unfold execFill; split <;> simp_all

theorem inBounds_iff (s : State) (column row : Word32) :
    s.inBounds column row = true ↔ column.toNat < s.columns.toNat ∧ row.toNat < s.rows.toNat := by
  simp [State.inBounds]

theorem execSetdot_cases (column row : Word32) (lit : BitVec 1) (s : State) :
    (s.configured = false ∧ execSetdot column row lit s = .next (s.raise .notConfigured))
    ∨ (s.configured = true ∧ s.inBounds column row = false
      ∧ execSetdot column row lit s = .next (s.raise .indexOutOfRange))
    ∨ (s.configured = true ∧ s.inBounds column row = true
      ∧ execSetdot column row lit s
        = .next (s.writeBm (s.bm.memWrite (flatIndex s.rows column row) 1 lit.toNat)).done) := by
  unfold execSetdot
  split
  · exact .inl ⟨by assumption, rfl⟩
  · split
    · exact .inr (.inl ⟨by simp_all, by assumption, rfl⟩)
    · exact .inr (.inr ⟨by simp_all, by simp_all, rfl⟩)

theorem execBuild_cases (s : State) :
    (s.configured = false ∧ execBuild s = .next (s.raise .notConfigured))
    ∨ (s.configured = true ∧ s.frame = none ∧ execBuild s = .next (s.raise .invalidArgument))
    ∨ (s.configured = true ∧ ∃ f, s.frame = some f ∧ execBuild s = .next (s.respond .ok f)) := by
  unfold execBuild
  split
  · exact .inl ⟨by assumption, rfl⟩
  · cases h : s.frame with
    | none => exact .inr (.inl ⟨by simp_all, rfl, rfl⟩)
    | some f => exact .inr (.inr ⟨by simp_all, f, rfl, rfl⟩)

theorem execSend_cases (s : State) :
    (s.configured = false ∧ execSend s = .next (s.raise .notConfigured))
    ∨ (s.configured = true ∧ s.tstate ≠ .ready ∧ execSend s = .next (s.raise .transportUnavailable))
    ∨ (s.configured = true ∧ s.tstate = .ready ∧ s.pending ≠ none ∧ execSend s = .next (s.raise .busy))
    ∨ (s.configured = true ∧ s.tstate = .ready ∧ s.pending = none ∧ s.frame = none
      ∧ execSend s = .next (s.raise .invalidArgument))
    ∨ (s.configured = true ∧ s.tstate = .ready ∧ s.pending = none
      ∧ ∃ f, s.frame = some f ∧ execSend s = .next (s.writePending (some f)).done) := by
  unfold execSend State.hasPending
  split
  · exact .inl ⟨by assumption, rfl⟩
  · rename_i hc
    have hc : s.configured = true := by simpa using hc
    split
    · exact .inr (.inl ⟨hc, by assumption, rfl⟩)
    · rename_i ht
      have ht : s.tstate = .ready := by simpa using ht
      split
      · rename_i hp
        exact .inr (.inr (.inl ⟨hc, ht, by intro h; simp [h] at hp, rfl⟩))
      · rename_i hp
        have hp : s.pending = none := by simpa using hp
        cases h : s.frame with
        | none => exact .inr (.inr (.inr (.inl ⟨hc, ht, hp, rfl, rfl⟩)))
        | some f => exact .inr (.inr (.inr (.inr ⟨hc, ht, hp, f, rfl, rfl⟩)))

theorem execEncode_cases (value : Word32) (s : State) :
    (255 < value.toNat ∧ execEncode value s = .next (s.raise .invalidArgument))
    ∨ (value.toNat ≤ 255
      ∧ execEncode value s = .next (s.respond .ok (aheBytes (BitVec.ofNat 8 value.toNat)))) := by
  by_cases h : value.toNat ≤ 255
  · exact .inr ⟨h, by simp [execEncode, enc, Config.ENC_MAX, h, aheBytes]⟩
  · exact .inl ⟨by omega, by simp [execEncode, enc, Config.ENC_MAX, h]⟩

end Sys2Proof.Machine
end

