-- ==== Sys2Proof/Laws/Step.lean ====
section
/-! SUPPORT. What the transport's, the timer's and the packer's steps, and a step of the machine, can do when they
answer a next state. -/

namespace Sys2Proof.Machine

/-- What a step of the transport or of the timer does (45_transport_send.md R201, R207). -/
theorem stepEvent_cases (e : Event) (s t : State) (h : stepEvent e s = .next t) :
    (e = .atOpen ∧ s.tstate = .closed ∧ t = s.writeTState .opening)
    ∨ (e = .atReady ∧ s.tstate = .opening ∧ t = s.writeTState .ready)
    ∨ (e = .atClose ∧ s.tstate ≠ .closed ∧ s.pending = none ∧ t = s.writeTState .closed)
    ∨ (e = .atFire ∧ s.tstate = .ready ∧ ∃ f, s.pending = some f ∧ t = (s.transmit f).writePending none) := by
  cases e with
  | atOpen =>
    simp only [stepEvent, stepOpen] at h
    split at h <;> simp_all
  | atReady =>
    simp only [stepEvent, stepReady] at h
    split at h <;> simp_all
  | atClose =>
    simp only [stepEvent, stepClose, State.hasPending] at h
    by_cases hp : s.pending.isSome = true
    · cases ht : s.tstate <;> simp [ht, hp] at h
    · cases ht : s.tstate <;> simp [ht, hp] at h <;> simp_all
  | atFire =>
    simp only [stepEvent, stepFire] at h
    split at h <;> simp_all

/-- What a step of the packer does (44_serial_frame_packer.md R178, R179, R182). -/
theorem stepPacker_cases (s t : State) (h : stepPacker s = .next t) :
    (s.packer.phase = .hdr ∧ ∃ header b, headerBytes s.address s.packedCount = some header
      ∧ header[s.packer.pos.toNat]? = some b
      ∧ t = s.writePacker ((s.packer.emitSummed b).afterHeader s.packedCount))
    ∨ (s.packer.phase = .body ∧ s.packer.pos.toNat < 2 * s.packedCount ∧ s.packer.pos.toNat % 2 = 0
      ∧ t = s.writePacker (s.packer.highHalf s.bm))
    ∨ (s.packer.phase = .body ∧ s.packer.pos.toNat < 2 * s.packedCount ∧ s.packer.pos.toNat % 2 = 1
      ∧ t = s.writePacker (s.packer.lowHalf s.packedCount))
    ∨ (s.packer.phase = .ftr ∧ s.packer.pos = 0 ∧ t = s.writePacker s.packer.footerEtx)
    ∨ (s.packer.phase = .ftr ∧ s.packer.pos = 1 ∧ t = s.writePacker s.packer.footerHigh)
    ∨ (s.packer.phase = .ftr ∧ s.packer.pos = 2 ∧ t = finishBuild (s.writePacker s.packer.footerLow)) := by
  unfold stepPacker at h
  split at h
  · simp at h
  · rename_i hp
    unfold stepHeader at h
    split at h
    · simp at h
    · rename_i header hh
      split at h
      · simp at h
      · rename_i b hb
        exact .inl ⟨hp, header, b, hh, hb, by simpa using h.symm⟩
  · rename_i hp
    unfold stepBody at h
    split at h
    · rename_i hlt
      split at h
      · rename_i he
        exact .inr (.inl ⟨hp, hlt, he, by simpa using h.symm⟩)
      · rename_i he
        exact .inr (.inr (.inl ⟨hp, hlt, by omega, by simpa using h.symm⟩))
    · simp at h
  · rename_i hp
    unfold stepFooter at h
    split at h
    · rename_i h0
      exact .inr (.inr (.inr (.inl ⟨hp, h0, by simpa using h.symm⟩)))
    · split at h
      · rename_i h1
        exact .inr (.inr (.inr (.inr (.inl ⟨hp, h1, by simpa using h.symm⟩))))
      · split at h
        · rename_i h2
          exact .inr (.inr (.inr (.inr (.inr ⟨hp, h2, by simpa using h.symm⟩))))
        · simp at h

/-- What a step of the machine does: nothing, a command, a command at the byte level, an event, or a step of the
packer (60_exceptions.md R237, 44_serial_frame_packer.md R189). -/
theorem step_cases (s t : State) (h : step s = .next t) :
    (s.packer.phase = .idle ∧ s.inputs = [] ∧ t = s)
    ∨ (s.packer.phase = .idle ∧ ∃ w rest, s.inputs = .command w :: rest
      ∧ stepCommand w (s.writeInputs rest) = .next t)
    ∨ (s.packer.phase = .idle ∧ ∃ w rest, s.inputs = .serialCommand w :: rest
      ∧ stepSerialCommand w (s.writeInputs rest) = .next t)
    ∨ (∃ e rest, s.inputs = .event e :: rest ∧ stepEvent e (s.writeInputs rest) = .next t)
    ∨ (s.packer.phase ≠ .idle ∧ ∃ rest, (rest = s.inputs ∨ s.inputs = .byteStep :: rest)
      ∧ stepPacker (s.writeInputs rest) = .next t) := by
  have hself : s.writeInputs s.inputs = s := rfl
  unfold step at h
  split at h
  · rename_i hp
    unfold stepIdle at h
    split at h
    · rename_i hi; exact .inl ⟨hp, hi, by simpa using h.symm⟩
    · rename_i w rest hi; exact .inr (.inl ⟨hp, w, rest, hi, h⟩)
    · rename_i w rest hi; exact .inr (.inr (.inl ⟨hp, w, rest, hi, h⟩))
    · rename_i e rest hi; exact .inr (.inr (.inr (.inl ⟨e, rest, hi, h⟩)))
    · simp at h
  · rename_i hp
    unfold stepBuilding at h
    split at h
    · exact .inr (.inr (.inr (.inr ⟨hp, s.inputs, .inl rfl, by rwa [hself]⟩)))
    · exact .inr (.inr (.inr (.inr ⟨hp, s.inputs, .inl rfl, by rwa [hself]⟩)))
    · exact .inr (.inr (.inr (.inr ⟨hp, s.inputs, .inl rfl, by rwa [hself]⟩)))
    · rename_i e rest hi; exact .inr (.inr (.inr (.inl ⟨e, rest, hi, h⟩)))
    · rename_i rest hi; exact .inr (.inr (.inr (.inr ⟨hp, rest, .inr hi, h⟩)))

/-- An event at the head of the list is the step, in every phase of a build (44_serial_frame_packer.md R189). -/
theorem step_event (s : State) (e : Event) (rest : List Input) (hi : s.inputs = .event e :: rest) :
    step s = stepEvent e (s.writeInputs rest) := by
  by_cases hp : s.packer.phase = .idle
  · simp only [step, if_pos hp, stepIdle, hi]
  · simp only [step, if_neg hp, stepBuilding, hi]

/-- A word offered at either level while no build holds the port. -/
theorem step_command (s : State) (w : CommandWord) (rest : List Input) (hp : s.packer.phase = .idle)
    (hi : s.inputs = .command w :: rest) : step s = stepCommand w (s.writeInputs rest) := by
  simp only [step, if_pos hp, stepIdle, hi]

theorem step_serialCommand (s : State) (w : CommandWord) (rest : List Input) (hp : s.packer.phase = .idle)
    (hi : s.inputs = .serialCommand w :: rest) : step s = stepSerialCommand w (s.writeInputs rest) := by
  simp only [step, if_pos hp, stepIdle, hi]

/-- When `@fire` is enabled (45_transport_send.md R207). -/
theorem fireEnabled_iff (s : State) : s.fireEnabled = true ↔ s.pending ≠ none ∧ s.tstate = .ready := by
  simp [State.fireEnabled, State.hasPending, Option.isSome_iff_ne_none]

/-- A word on the port answers what its command answers, or `IllegalCommand` (60_exceptions.md R230). -/
theorem stepCommand_cases (w : CommandWord) (s : State) :
    (∃ i, decode w = .ok i ∧ stepCommand w s = exec i s)
    ∨ (∃ r, decode w = .error r ∧ stepCommand w s = .next (s.raise .illegalCommand)) := by
  unfold stepCommand
  cases h : decode w with
  | ok i => exact .inl ⟨i, rfl, rfl⟩
  | error r => exact .inr ⟨r, rfl, rfl⟩

/-- The same at the byte level. -/
theorem stepSerialCommand_cases (w : CommandWord) (s : State) :
    (∃ i, decode w = .ok i ∧ stepSerialCommand w s = execSerial i s)
    ∨ (∃ r, decode w = .error r ∧ stepSerialCommand w s = .next (s.raise .illegalCommand)) := by
  unfold stepSerialCommand
  cases h : decode w with
  | ok i => exact .inl ⟨i, rfl, rfl⟩
  | error r => exact .inr ⟨r, rfl, rfl⟩

/-- What the start of a byte-level build does (44_serial_frame_packer.md R177). -/
theorem beginBuild_cases (s : State) :
    (∃ st, beginBuild s = .next (s.raise st))
    ∨ (s.configured = true ∧ ∃ h, headerBytes s.address s.packedCount = some h
      ∧ beginBuild s = .next (startBuild .build s)) := by
  unfold beginBuild
  split
  · exact .inl ⟨_, rfl⟩
  · split
    · exact .inl ⟨_, rfl⟩
    · rename_i h hh; exact .inr ⟨by simp_all, h, hh, rfl⟩

theorem beginSend_cases (s : State) :
    (∃ st, beginSend s = .next (s.raise st))
    ∨ (s.configured = true ∧ s.tstate = .ready ∧ s.pending = none
      ∧ ∃ h, headerBytes s.address s.packedCount = some h ∧ beginSend s = .next (startBuild .send s)) := by
  unfold beginSend State.hasPending
  split
  · exact .inl ⟨_, rfl⟩
  · split
    · exact .inl ⟨_, rfl⟩
    · split
      · exact .inl ⟨_, rfl⟩
      · split
        · exact .inl ⟨_, rfl⟩
        · rename_i h hh; exact .inr ⟨by simp_all, by simp_all, by simp_all, h, hh, rfl⟩

end Sys2Proof.Machine
end

