-- ==== Sys2Proof/Laws/Effects.lean ====
section
/-! SUPPORT. What a command, a command at the byte level and a step of the packer leave changed and unchanged, and how
the host's run unfolds. -/

namespace Sys2Proof.Machine

/-- Everything a command can do to each field of State when it answers a next state. -/
theorem exec_effect (i : Instr) (s t : State) (h : exec i s = .next t) :
    ∃ r, t.responses = s.responses ++ [r] ∧ t.packer = s.packer ∧ t.tstate = s.tstate ∧ t.txlog = s.txlog
      ∧ t.inputs = s.inputs
      ∧ (t.pending = s.pending
        ∨ (i = .send ∧ s.pending = none ∧ s.tstate = .ready ∧ s.configured = true
          ∧ ∃ f, s.frame = some f ∧ t.pending = some f))
      ∧ ((t.bm = s.bm ∧ t.address = s.address ∧ t.columns = s.columns ∧ t.rows = s.rows
          ∧ t.configured = s.configured)
        ∨ (s.configured = true ∧ t.address = s.address ∧ t.columns = s.columns ∧ t.rows = s.rows
          ∧ t.configured = s.configured
          ∧ ((i = .clear ∧ t.bm = Memory.replicate (cellCount s.columns s.rows) 0)
            ∨ (i = .fill ∧ t.bm = Memory.replicate (cellCount s.columns s.rows) 1)
            ∨ ∃ c r l, i = .setdot c r l ∧ s.inBounds c r = true
              ∧ t.bm = s.bm.write (flatIndex s.rows c r) l))
        ∨ (∃ a c r, i = .config a c r ∧ t.configured = true ∧ t.bm = [] ∧ t.rows.toNat % 8 = 0
          ∧ cellCount t.columns t.rows ≤ Config.CAP_CELLS)) := by
  cases i with
  | config a c r =>
    simp only [exec] at h
    rcases execConfig_cases a c r s with ⟨h1, h2, h3⟩ | ⟨h1, h2⟩
    · rw [h3] at h; cases h
      refine ⟨_, rfl, rfl, rfl, rfl, rfl, .inl rfl, .inr (.inr ⟨a, c, r, rfl, rfl, rfl, ?_, ?_⟩)⟩
      · simp only [State.done_eq, State.respond_rows, State.construct_rows, BitVec.toNat_ofNat]
        rw [round8_eq] at *; omega
      · simp only [State.done_eq, State.respond_rows, State.construct_rows, State.respond_columns,
        State.construct_columns, cellCount, BitVec.toNat_ofNat]
        rwa [Nat.mod_eq_of_lt (by omega)]
    · rw [h2] at h; cases h
      exact ⟨_, rfl, rfl, rfl, rfl, rfl, .inl rfl, .inl ⟨rfl, rfl, rfl, rfl, rfl⟩⟩
  | clear =>
    simp only [exec] at h
    rcases execClear_cases s with ⟨hc, h'⟩ | ⟨hc, h'⟩ <;> (rw [h'] at h; cases h)
    · exact ⟨_, rfl, rfl, rfl, rfl, rfl, .inl rfl, .inl ⟨rfl, rfl, rfl, rfl, rfl⟩⟩
    · exact ⟨_, rfl, rfl, rfl, rfl, rfl, .inl rfl, .inr (.inl ⟨hc, rfl, rfl, rfl, rfl, .inl ⟨rfl, by simp⟩⟩)⟩
  | fill =>
    simp only [exec] at h
    rcases execFill_cases s with ⟨hc, h'⟩ | ⟨hc, h'⟩ <;> (rw [h'] at h; cases h)
    · exact ⟨_, rfl, rfl, rfl, rfl, rfl, .inl rfl, .inl ⟨rfl, rfl, rfl, rfl, rfl⟩⟩
    · exact ⟨_, rfl, rfl, rfl, rfl, rfl, .inl rfl, .inr (.inl ⟨hc, rfl, rfl, rfl, rfl, .inr (.inl ⟨rfl, by simp⟩)⟩)⟩
  | setdot c r l =>
    simp only [exec] at h
    rcases execSetdot_cases c r l s with ⟨hc, h'⟩ | ⟨hc, hb, h'⟩ | ⟨hc, hb, h'⟩ <;> (rw [h'] at h; cases h)
    · exact ⟨_, rfl, rfl, rfl, rfl, rfl, .inl rfl, .inl ⟨rfl, rfl, rfl, rfl, rfl⟩⟩
    · exact ⟨_, rfl, rfl, rfl, rfl, rfl, .inl rfl, .inl ⟨rfl, rfl, rfl, rfl, rfl⟩⟩
    · refine ⟨_, rfl, rfl, rfl, rfl, rfl, .inl rfl, .inr (.inl ⟨hc, rfl, rfl, rfl, rfl, .inr (.inr ?_)⟩)⟩
      exact ⟨c, r, l, rfl, hb, by simp [Memory.memWrite_one]⟩
  | build =>
    simp only [exec] at h
    rcases execBuild_cases s with ⟨hc, h'⟩ | ⟨hc, hb, h'⟩ | ⟨hc, f, hb, h'⟩ <;> (rw [h'] at h; cases h) <;>
    exact ⟨_, rfl, rfl, rfl, rfl, rfl, .inl rfl, .inl ⟨rfl, rfl, rfl, rfl, rfl⟩⟩
  | send =>
    simp only [exec] at h
    rcases execSend_cases s with
      ⟨hc, h'⟩ | ⟨hc, hb, h'⟩ | ⟨hc, hb, hp, h'⟩ | ⟨hc, hb, hp, hf, h'⟩ | ⟨hc, hb, hp, f, hf, h'⟩ <;>
      (rw [h'] at h; cases h)
    · exact ⟨_, rfl, rfl, rfl, rfl, rfl, .inl rfl, .inl ⟨rfl, rfl, rfl, rfl, rfl⟩⟩
    · exact ⟨_, rfl, rfl, rfl, rfl, rfl, .inl rfl, .inl ⟨rfl, rfl, rfl, rfl, rfl⟩⟩
    · exact ⟨_, rfl, rfl, rfl, rfl, rfl, .inl rfl, .inl ⟨rfl, rfl, rfl, rfl, rfl⟩⟩
    · exact ⟨_, rfl, rfl, rfl, rfl, rfl, .inl rfl, .inl ⟨rfl, rfl, rfl, rfl, rfl⟩⟩
    · exact ⟨_, rfl, rfl, rfl, rfl, rfl, .inr ⟨rfl, hp, hb, hc, f, hf, rfl⟩, .inl ⟨rfl, rfl, rfl, rfl, rfl⟩⟩
  | encode v =>
    simp only [exec] at h
    rcases execEncode_cases v s with ⟨hc, h'⟩ | ⟨hc, h'⟩ <;> (rw [h'] at h; cases h) <;>
    exact ⟨_, rfl, rfl, rfl, rfl, rfl, .inl rfl, .inl ⟨rfl, rfl, rfl, rfl, rfl⟩⟩

/-- A command always answers a next state: a failure is a response (60_exceptions.md R225, R232). -/
theorem exec_answers_next (i : Instr) (s : State) : ∃ t, exec i s = .next t := by
  cases i with
  | config a c r => rcases execConfig_cases a c r s with ⟨_, _, h⟩ | ⟨_, h⟩ <;> exact ⟨_, h⟩
  | clear => rcases execClear_cases s with ⟨_, h⟩ | ⟨_, h⟩ <;> exact ⟨_, h⟩
  | fill => rcases execFill_cases s with ⟨_, h⟩ | ⟨_, h⟩ <;> exact ⟨_, h⟩
  | setdot c r l => rcases execSetdot_cases c r l s with ⟨_, h⟩ | ⟨_, _, h⟩ | ⟨_, _, h⟩ <;> exact ⟨_, h⟩
  | build => rcases execBuild_cases s with ⟨_, h⟩ | ⟨_, _, h⟩ | ⟨_, f, _, h⟩ <;> exact ⟨_, h⟩
  | send => rcases execSend_cases s with ⟨_, h⟩ | ⟨_, _, h⟩ | ⟨_, _, _, h⟩ | ⟨_, _, _, _, h⟩ | ⟨_, _, _, _, _, h⟩ <;> exact ⟨_, h⟩
  | encode v => rcases execEncode_cases v s with ⟨_, h⟩ | ⟨_, h⟩ <;> exact ⟨_, h⟩

/-- What a command does at the byte level: its atomic transition, a failure, or the start of a build
(44_serial_frame_packer.md R177). -/
theorem execSerial_cases (i : Instr) (s t : State) (h : execSerial i s = .next t) :
    (exec i s = .next t ∧ i ≠ .build ∧ i ≠ .send)
    ∨ ((i = .build ∨ i = .send) ∧ ∃ st, t = s.raise st)
    ∨ (s.configured = true ∧ ∃ o hd, headerBytes s.address s.packedCount = some hd ∧ t = startBuild o s
      ∧ ((i = .build ∧ o = .build)
        ∨ (i = .send ∧ o = .send ∧ s.tstate = .ready ∧ s.pending = none))) := by
  cases i with
  | build =>
    simp only [execSerial] at h
    rcases beginBuild_cases s with ⟨st, h'⟩ | ⟨hc, hd, hh, h'⟩ <;> (rw [h'] at h; cases h)
    · exact .inr (.inl ⟨.inl rfl, st, rfl⟩)
    · exact .inr (.inr ⟨hc, _, hd, hh, rfl, .inl ⟨rfl, rfl⟩⟩)
  | send =>
    simp only [execSerial] at h
    rcases beginSend_cases s with ⟨st, h'⟩ | ⟨hc, ht, hp, hd, hh, h'⟩ <;> (rw [h'] at h; cases h)
    · exact .inr (.inl ⟨.inr rfl, st, rfl⟩)
    · exact .inr (.inr ⟨hc, _, hd, hh, rfl, .inr ⟨rfl, rfl, ht, hp⟩⟩)
  | _ => exact .inl ⟨h, by simp, by simp⟩

/-- What a step of the packer leaves unchanged. -/
theorem stepPacker_effect (s t : State) (h : stepPacker s = .next t) :
    t.bm = s.bm ∧ t.address = s.address ∧ t.columns = s.columns ∧ t.rows = s.rows
      ∧ t.configured = s.configured ∧ t.tstate = s.tstate ∧ t.txlog = s.txlog ∧ t.inputs = s.inputs
      ∧ (t.pending = s.pending ∨ (s.packer.owner = .send ∧ s.packer.phase = .ftr)) := by
  rcases stepPacker_cases s t h with ⟨_, a, b, _, _, rfl⟩ | ⟨_, _, _, rfl⟩ | ⟨_, _, _, rfl⟩ | ⟨_, _, rfl⟩ | ⟨_, _, rfl⟩ | ⟨hp, _, rfl⟩
  all_goals try exact ⟨rfl, rfl, rfl, rfl, rfl, rfl, rfl, rfl, .inl rfl⟩
  unfold finishBuild
  split
  · exact ⟨rfl, rfl, rfl, rfl, rfl, rfl, rfl, rfl, .inl rfl⟩
  · rename_i ho
    exact ⟨rfl, rfl, rfl, rfl, rfl, rfl, rfl, rfl, .inr ⟨ho, hp⟩⟩

/-! ## The host's run -/

/-- One more step of a run, for any machine behind the host's interface. -/
theorem run_of_next (M : Host.Core) (n : Nat) (s t : M.State) (h : M.step s = .next t) :
    M.run (n + 1) s = M.run n t := by
  rw [Host.Core.run, h]

/-- One more step of a run of this machine. -/
theorem core_run_of_next (n : Nat) (s t : State) (h : step s = .next t) :
    Sys2Proof.core.run (n + 1) s = Sys2Proof.core.run n t := run_of_next Sys2Proof.core n s t h

theorem core_run_zero (s : State) : Sys2Proof.core.run 0 s = .next s := rfl

end Sys2Proof.Machine
end

