-- ==== Sys2Proof/Laws/Encoder.lean ====
section
/-! SUPPORT. The byte encoder's hardware form against the spec's arithmetic over the natural numbers. -/

namespace Sys2Proof.Machine

/-- The AHE's two characters are `enc` of the byte's value (40_ascii_hex_byte_encoder.md R100). -/
theorem aheBytes_eq (v : Byte) : aheBytes v = Spec.encChars v.toNat := by
  have : ∀ v : Byte, aheBytes v = Spec.encChars v.toNat := by decide
  exact this v

theorem ahe_isHexCode (v : Byte) :
    Spec.isHexCode (ahe v).1 = true ∧ Spec.isHexCode (ahe v).2 = true := by
  have : ∀ v : Byte, Spec.isHexCode (ahe v).1 = true ∧ Spec.isHexCode (ahe v).2 = true := by decide
  exact this v

/-- Every character of the encoder lies in 0x30 to 0x46. -/
theorem isHexCode_bounds (b : Byte) (h : Spec.isHexCode b = true) : 0x30 ≤ b.toNat ∧ b.toNat ≤ 0x46 := by
  simp only [Spec.isHexCode, Bool.or_eq_true, Bool.and_eq_true, decide_eq_true_eq] at h
  omega

theorem enc_of_le (v : Nat) (h : v ≤ 255) : enc v = some (ahe (BitVec.ofNat 8 v)) := if_pos h

theorem enc_of_gt (v : Nat) (h : 255 < v) : enc v = none := if_neg (Nat.not_le.2 h)

theorem ahe_pair (v : Nat) (h : v ≤ 255) :
    [(ahe (BitVec.ofNat 8 v)).1, (ahe (BitVec.ofNat 8 v)).2] = Spec.encChars v := by
  have := aheBytes_eq (BitVec.ofNat 8 v)
  rwa [aheBytes, BitVec.toNat_ofNat, Nat.mod_eq_of_lt (by omega)] at this

/-- The two characters are those of two digits, and the digits are the value's (40_ascii_hex_byte_encoder.md R105). -/
theorem hexchar_unhex (d : BitVec 4) : Spec.unhex (hexchar d) = d.toNat := by
  have : ∀ d : BitVec 4, Spec.unhex (hexchar d) = d.toNat := by decide
  exact this d

end Sys2Proof.Machine
end

