-- ==== Sys2Proof/Laws/Frame.lean ====
section
/-! SUPPORT. What the frame function and its three parts are: when they exist, their lengths, and the spec's arithmetic. -/

namespace Sys2Proof.Machine

theorem packedByte_toNat (bm : Memory) (k : Nat) : (packedByte bm k).toNat = Spec.packed bm k := by
  have h := Memory.memRead_lt bm (8 * k) 8
  rw [packedByte, BitVec.toNat_ofNat, Nat.mod_eq_of_lt h]
  rfl

theorem spec_packed_lt (bm : Memory) (k : Nat) : Spec.packed bm k < 256 := by
  rw [← packedByte_toNat]; exact (packedByte bm k).isLt

/-- When a header exists, and what it is (42_bitmap_to_frame_encoder.md R136, R137). -/
theorem headerBytes_eq_some (address : Byte) (n : Nat) (h : List Byte) :
    headerBytes address n = some h ↔
      n ≤ 255 ∧ address.toNat + 0x30 ≤ 255
        ∧ h = [0x02, 0x31, BitVec.ofNat 8 (address.toNat + 0x30)] ++ Spec.encChars n := by
  by_cases hn : n ≤ 255
  · have hp := ahe_pair n hn
    by_cases ha : address.toNat + 0x30 > 255
    · simp only [headerBytes, enc_of_le n hn, Config.ADDR_BASE, if_pos ha]
      constructor
      · intro hc; exact absurd hc (by simp)
      · intro hc; omega
    · simp only [headerBytes, enc_of_le n hn, Config.ADDR_BASE, Config.STX, Config.FTYPE, if_neg ha, ← hp]
      constructor
      · intro hc; exact ⟨hn, by omega, by simpa using hc.symm⟩
      · intro hc; simp [hc.2.2]
  · simp only [headerBytes, enc_of_gt n (by omega)]
    constructor
    · intro hc; exact absurd hc (by simp)
    · intro hc; exact absurd hc.1 hn

theorem headerBytes_eq_none (address : Byte) (n : Nat) :
    headerBytes address n = none ↔ 255 < n ∨ 208 ≤ address.toNat := by
  cases h : headerBytes address n with
  | none =>
    simp only [true_iff]
    by_contra hc
    have := (headerBytes_eq_some address n _).2 ⟨by omega, by omega, rfl⟩
    rw [h] at this
    exact absurd this (by simp)
  | some hd =>
    have := (headerBytes_eq_some address n hd).1 h
    simp only [reduceCtorEq, false_iff]
    omega

theorem headerBytes_length (address : Byte) (n : Nat) (h : List Byte) (hh : headerBytes address n = some h) :
    h.length = 5 := by
  rw [((headerBytes_eq_some address n h).1 hh).2.2]; rfl

theorem bodyBytes_succ (bm : Memory) (n : Nat) :
    bodyBytes bm (n + 1) = bodyBytes bm n ++ aheBytes (packedByte bm n) := by
  simp [bodyBytes, List.range_succ, List.flatMap_append]

theorem bodyBytes_length (bm : Memory) (n : Nat) : (bodyBytes bm n).length = 2 * n := by
  induction n with
  | zero => rfl
  | succ n ih => rw [bodyBytes_succ, List.length_append, ih]; simp [aheBytes]; omega

/-- The body in the spec's arithmetic (42_bitmap_to_frame_encoder.md R138, R139). -/
theorem bodyBytes_eq (bm : Memory) (n : Nat) :
    bodyBytes bm n = (List.range n).flatMap (fun k => Spec.encChars (Spec.packed bm k)) := by
  simp only [bodyBytes, aheBytes_eq, packedByte_toNat]

/-- The two characters of packed byte `k` stand at body indices `2k` and `2k + 1` (30_encoding.md R72). -/
theorem bodyBytes_getElem? (bm : Memory) (n k : Nat) (hk : k < n) :
    (bodyBytes bm n)[2 * k]? = some (ahe (packedByte bm k)).1
      ∧ (bodyBytes bm n)[2 * k + 1]? = some (ahe (packedByte bm k)).2 := by
  induction n with
  | zero => omega
  | succ n ih =>
    rw [bodyBytes_succ]
    by_cases h : k < n
    · rw [List.getElem?_append_left (by rw [bodyBytes_length]; omega),
        List.getElem?_append_left (by rw [bodyBytes_length]; omega)]
      exact ih h
    · have hkn : k = n := by omega
      subst hkn
      have hl := bodyBytes_length bm k
      rw [List.getElem?_append_right (by omega), List.getElem?_append_right (by omega), hl, Nat.sub_self,
        Nat.add_sub_cancel_left]
      exact ⟨rfl, rfl⟩

theorem footerBytes_length (l : List Byte) : (footerBytes l).length = 3 := rfl

theorem footerBytes_eq (l : List Byte) :
    footerBytes l = 0x03 :: Spec.encChars (Spec.checkOfSum (sumBytes l)) := by
  rw [footerBytes, aheBytes_eq, checkValue_maskedSum_toNat]

/-- The frame is header, body and footer, where there is a header (42_bitmap_to_frame_encoder.md R145). -/
theorem frame_of_header (address : Byte) (columns rows : Word32) (bm : Memory) (h : List Byte)
    (hh : headerBytes address (packedCount columns rows) = some h) :
    frame address columns rows bm = some (h ++ bodyBytes bm (packedCount columns rows)
      ++ footerBytes (h ++ bodyBytes bm (packedCount columns rows))) := by
  simp only [frame, hh]

theorem frame_eq_none (address : Byte) (columns rows : Word32) (bm : Memory) :
    frame address columns rows bm = none ↔ headerBytes address (packedCount columns rows) = none := by
  simp only [frame]; split <;> simp_all

/-- Where a frame exists, its header exists and the frame is the three parts. -/
theorem frame_eq_some (address : Byte) (columns rows : Word32) (bm : Memory) (f : List Byte) :
    frame address columns rows bm = some f ↔
      ∃ h, headerBytes address (packedCount columns rows) = some h
        ∧ f = h ++ bodyBytes bm (packedCount columns rows)
          ++ footerBytes (h ++ bodyBytes bm (packedCount columns rows)) := by
  cases hh : headerBytes address (packedCount columns rows) with
  | none => simp [(frame_eq_none address columns rows bm).2 hh]
  | some h => simp [frame_of_header address columns rows bm h hh, eq_comm]

/-- The frame depends on the cells of the bitmap and on nothing else of it. -/
theorem bodyBytes_congr (m₁ m₂ : Memory) (n : Nat) (h : ∀ i, i < 8 * n → m₁.read i = m₂.read i) :
    bodyBytes m₁ n = bodyBytes m₂ n := by
  induction n with
  | zero => rfl
  | succ n ih =>
    rw [bodyBytes_succ, bodyBytes_succ, ih (fun i hi => h i (by omega)), packedByte, packedByte,
      Memory.memRead_congr m₁ m₂ (8 * n) 8 (fun j hj => h _ (by omega))]

end Sys2Proof.Machine
end

