-- ==== Sys2Proof/Laws/Packer.lean ====
section
/-! SUPPORT. The packer's steps against the frame: what a gather leaves in SHREG, and how each step moves a build along
its header, body and footer (44_serial_frame_packer.md). -/

namespace Sys2Proof.Machine

/-- After gathering packed byte `k`, SHREG is `P_k` and BITCNT is 8 (R181). -/
theorem Packer.gather_eq (p : Packer) (bm : Memory) (k : Nat) :
    p.gather bm k = { p with shreg := packedByte bm k, bitcnt := 8 } := by
  have key : ∀ a b c d e f g h : BitVec 1,
      (((((((((0 : Byte) ||| a.setWidth 8 <<< 0) ||| b.setWidth 8 <<< 1) ||| c.setWidth 8 <<< 2)
        ||| d.setWidth 8 <<< 3) ||| e.setWidth 8 <<< 4) ||| f.setWidth 8 <<< 5) ||| g.setWidth 8 <<< 6)
        ||| h.setWidth 8 <<< 7)
      = BitVec.ofNat 8 (a.toNat * 2 ^ 0 + (b.toNat * 2 ^ 1 + (c.toNat * 2 ^ 2 + (d.toNat * 2 ^ 3
        + (e.toNat * 2 ^ 4 + (f.toNat * 2 ^ 5 + (g.toNat * 2 ^ 6 + (h.toNat * 2 ^ 7 + 0)))))))) := by decide
  have h8 : List.range 8 = [0, 1, 2, 3, 4, 5, 6, 7] := rfl
  simp only [Packer.gather, h8, List.foldl_cons, List.foldl_nil, Packer.shiftIn, packedByte, Memory.memRead,
    List.map_cons, List.map_nil, List.sum_cons, List.sum_nil]
  congr 1
  exact key _ _ _ _ _ _ _ _

/-- One more element of a list. -/
theorem take_succ_of_getElem? {α : Type} (l : List α) (i : Nat) (x : α) (h : l[i]? = some x) :
    l.take (i + 1) = l.take i ++ [x] := by
  rw [List.take_add_one, h]; rfl

/-- A header step moves the build one header byte on. -/
theorem headerStep_stands (p : Packer) (header body : List Byte) (bm : Memory) (b : Byte) (n : Nat)
    (hl : header.length = 5) (hb : body.length = 2 * n) (hph : p.phase = .hdr)
    (hs : BuildStands p header body bm) (hx : header[p.pos.toNat]? = some b) :
    BuildStands ((p.emitSummed b).afterHeader n) header body bm := by
  simp only [BuildStands, hph] at hs
  obtain ⟨hpos, hout, hacc⟩ := hs
  have hout' : p.out ++ [b] = header.take (p.pos.toNat + 1) := by
    rw [take_succ_of_getElem? header _ b hx, hout]
  have hacc' : csaAdd p.acc b = csaSum (p.out ++ [b]) := by rw [csaSum_append_one, ← hacc]
  have hpp : (p.emitSummed b).pos = p.pos := rfl
  unfold Packer.afterHeader
  rw [hpp]
  split
  · rename_i hlt
    have h1 : (p.pos + 1).toNat = p.pos.toNat + 1 := by
      rw [BitVec.toNat_add]; simp; omega
    have : (p.emitSummed b).phase = .hdr := hph
    simp only [BuildStands, this, h1]
    exact ⟨by omega, hout', hacc'⟩
  · rename_i hge
    have h4 : p.pos.toNat = 4 := by omega
    have hall : p.pos.toNat + 1 = header.length := by omega
    rw [hall, List.take_length] at hout'
    by_cases hn : n = 0
    · have hbody : body = [] := List.eq_nil_of_length_eq_zero (by omega)
      simp only [BuildStands, if_pos hn]
      refine ⟨by simp, by simpa [hbody, Packer.emitSummed, Packer.emit] using hout', ?_, by simp⟩
      simp only [hbody, List.append_nil, ← hout']; exact hacc'
    · simp only [BuildStands, if_neg hn]
      refine ⟨by simp; omega, by simpa [Packer.emitSummed, Packer.emit] using hout', ?_, by simp⟩
      simpa [Packer.emitSummed, Packer.emit] using hacc'

/-- The high half of a body step moves the build one character on. -/
theorem highHalf_stands (p : Packer) (header : List Byte) (bm : Memory) (n : Nat) (_ : n ≤ 255)
    (hph : p.phase = .body) (hs : BuildStands p header (bodyBytes bm n) bm) (he : p.pos.toNat % 2 = 0) :
    BuildStands (p.highHalf bm) header (bodyBytes bm n) bm := by
  simp only [BuildStands, hph, bodyBytes_length] at hs
  obtain ⟨hpos, hout, hacc, -⟩ := hs
  have hk := (bodyBytes_getElem? bm n (p.pos.toNat / 2) (by omega)).1
  rw [Nat.mul_div_cancel' (Nat.dvd_of_mod_eq_zero he)] at hk
  have h1 : (p.pos + 1).toNat = p.pos.toNat + 1 := by rw [BitVec.toNat_add]; simp; omega
  have h2 : (p.pos.toNat + 1) / 2 = p.pos.toNat / 2 := by omega
  simp only [Packer.highHalf, Packer.gather_eq, Packer.emitSummed, Packer.emit, BuildStands, hph, bodyBytes_length, h1,
    h2]
  refine ⟨by omega, ?_, ?_, fun _ => trivial⟩
  · rw [hout, take_succ_of_getElem? _ _ _ hk, List.append_assoc]
  · rw [csaSum_append_one, ← hacc]

/-- The low half of a body step moves the build one character on, or to the footer. -/
theorem lowHalf_stands (p : Packer) (header : List Byte) (bm : Memory) (n : Nat) (hn : n ≤ 255)
    (hph : p.phase = .body) (hs : BuildStands p header (bodyBytes bm n) bm) (ho : p.pos.toNat % 2 = 1) :
    BuildStands (p.lowHalf n) header (bodyBytes bm n) bm := by
  simp only [BuildStands, hph, bodyBytes_length] at hs
  obtain ⟨hpos, hout, hacc, hsh⟩ := hs
  have hk := (bodyBytes_getElem? bm n (p.pos.toNat / 2) (by omega)).2
  have hidx : 2 * (p.pos.toNat / 2) + 1 = p.pos.toNat := by omega
  rw [hidx, ← hsh ho] at hk
  have hout' : p.out ++ [(ahe p.shreg).2] = header ++ (bodyBytes bm n).take (p.pos.toNat + 1) := by
    rw [hout, take_succ_of_getElem? _ _ _ hk, List.append_assoc]
  unfold Packer.lowHalf
  simp only
  split
  · rename_i hlt
    have h1 : (p.pos + 1).toNat = p.pos.toNat + 1 := by rw [BitVec.toNat_add]; simp; omega
    simp only [Packer.emitSummed, Packer.emit, BuildStands, hph, bodyBytes_length, h1]
    refine ⟨by omega, hout', ?_, fun h => by omega⟩
    rw [csaSum_append_one, ← hacc]
  · rename_i hge
    have hlast : p.pos.toNat + 1 = (bodyBytes bm n).length := by rw [bodyBytes_length]; omega
    rw [hlast, List.take_length] at hout'
    simp only [Packer.emitSummed, Packer.emit, BuildStands]
    refine ⟨by simp, by simpa using hout', ?_, fun h => absurd rfl h⟩
    rw [← hout', csaSum_append_one, ← hacc]

/-- The footer's first two steps move the build one byte on. -/
theorem footerEtx_stands (p : Packer) (header body : List Byte) (bm : Memory) (hph : p.phase = .ftr)
    (hs : BuildStands p header body bm) (h0 : p.pos = 0) : BuildStands p.footerEtx header body bm := by
  simp only [BuildStands, hph, h0] at hs
  obtain ⟨-, hout, hacc, -⟩ := hs
  simp only [Packer.footerEtx, Packer.emit, BuildStands, hph]
  refine ⟨by decide, ?_, hacc, fun _ => ?_⟩
  · rw [hout]; simp [footerBytes]
  · rw [hacc, csaMasked_csaSum]; exact ⟨rfl, rfl⟩

theorem footerHigh_stands (p : Packer) (header body : List Byte) (bm : Memory) (hph : p.phase = .ftr)
    (hs : BuildStands p header body bm) (h1 : p.pos = 1) : BuildStands p.footerHigh header body bm := by
  simp only [BuildStands, hph, h1] at hs
  obtain ⟨-, hout, hacc, hk⟩ := hs
  obtain ⟨hm, hc⟩ := hk (by decide)
  simp only [Packer.footerHigh, Packer.emit, BuildStands, hph]
  refine ⟨by decide, ?_, hacc, fun _ => ⟨hm, hc⟩⟩
  rw [hout, hc]; simp [footerBytes, aheBytes]

/-- The last footer step completes the frame (R183). -/
theorem footerLow_out (p : Packer) (header body : List Byte) (bm : Memory) (hph : p.phase = .ftr)
    (hs : BuildStands p header body bm) (h2 : p.pos = 2) :
    p.footerLow.out = header ++ body ++ footerBytes (header ++ body) := by
  simp only [BuildStands, hph, h2] at hs
  obtain ⟨-, hout, -, hk⟩ := hs
  obtain ⟨-, hc⟩ := hk (by decide)
  simp only [Packer.footerLow, Packer.emit]
  rw [hout, hc]; simp [footerBytes, aheBytes]

/-- A build just started stands at its first header byte (R177). -/
theorem startBuild_stands (owner : BuildOwner) (s : State) (header body : List Byte) (bm : Memory) :
    BuildStands (startBuild owner s).packer header body bm := by
  simp [startBuild, BuildStands, csaSum]

end Sys2Proof.Machine
end

