-- ==== Sys2Proof/Laws/PerInstr.lean ====
section
/-! SUPPORT. The per-instruction family `SelectedByItsRow`: the word of every command is selected by the command's own
row of the match and mask table (30_encoding.md R82). -/

namespace Sys2Proof

theorem and_getLsbD_packWord (op imm8 mop mimm8 : Byte) (a b ma mb : Word32) :
    packWord op imm8 a b &&& packWord mop mimm8 ma mb
      = packWord (op &&& mop) (imm8 &&& mimm8) (a &&& ma) (b &&& mb) := by
  apply BitVec.eq_of_getLsbD_eq
  intro j hj
  simp only [BitVec.getLsbD_and, packWord_getLsbD]
  split
  · rfl
  · split
    · rfl
    · split <;> rfl

/-- The command's word is selected by its row. -/
def Laws.SelectedByItsRow.Statement (i : Instr) : Prop := i.row.selects (encode i) = true

theorem selects_packWord (op imm8 mop mimm8 : Byte) (a b ma mb : Word32) (name : String) (m : CommandWord)
    (h : packWord (op &&& mop) (imm8 &&& mimm8) (a &&& ma) (b &&& mb) = m) :
    (CommandRow.mk name m (packWord mop mimm8 ma mb)).selects (packWord op imm8 a b) = true := by
  rw [CommandRow.selects, beq_iff_eq, and_getLsbD_packWord, h]

theorem Laws.SelectedByItsRow.config (address : Byte) (columns rows : Word32) :
    Laws.SelectedByItsRow.Statement (.config address columns rows) :=
  selects_packWord 0x01 address 0xFF 0 columns rows 0 0 "CONFIG" _ (by simp; rfl)

theorem Laws.SelectedByItsRow.clear : Laws.SelectedByItsRow.Statement .clear := by
  unfold Laws.SelectedByItsRow.Statement; decide

theorem Laws.SelectedByItsRow.fill : Laws.SelectedByItsRow.Statement .fill := by
  unfold Laws.SelectedByItsRow.Statement; decide

theorem Laws.SelectedByItsRow.setdot (column row : Word32) (lit : BitVec 1) :
    Laws.SelectedByItsRow.Statement (.setdot column row lit) := by
  refine selects_packWord 0x04 (lit.setWidth 8) 0xFF 0xFE column row 0 0 "SETDOT" _ ?_
  have : ∀ v : BitVec 1, v.setWidth 8 &&& (0xFE : Byte) = 0 := by decide
  rw [this lit]; simp; rfl

theorem Laws.SelectedByItsRow.build : Laws.SelectedByItsRow.Statement .build := by
  unfold Laws.SelectedByItsRow.Statement; decide

theorem Laws.SelectedByItsRow.send : Laws.SelectedByItsRow.Statement .send := by
  unfold Laws.SelectedByItsRow.Statement; decide

theorem Laws.SelectedByItsRow.encode (value : Word32) : Laws.SelectedByItsRow.Statement (.encode value) :=
  selects_packWord 0x07 0 0xFF 0xFF value 0 0 0xFFFFFFFF "ENCODE" _ (by simp; rfl)

end Sys2Proof
end

