-- ==== Sys2Proof/Tests/Slice0.lean ====
section
/-! SUPPORT. Tests of the model on the spec's own vectors (95_test_vectors.md), the smoke test of the selection table, and
for every statement with hypotheses a state and operands that meet them together. -/

namespace Sys2Proof.Tests

open Sys2Proof.Machine

/-! ## Helpers -/

/-- The next state, where there is one. -/
def stateOf : Result → Option State
  | .next t => some t
  | .fault _ => none
  | .refused _ => none

/-- The response the step adds last, where there is a next state. -/
def answerOf (o : Result) : Option Response := (stateOf o).bind (fun t => t.responses.getLast?)

/-- A configured block. -/
def panel (address : Byte) (columns rows : Word32) (bm : Memory) : State :=
  { State.reset with configured := true, address := address, columns := columns, rows := rows, bm := bm }

/-- The block of vector V4: `CONFIG 6, 2, 8` and cell (1,3) lit. -/
def dotted : State := panel 6 2 8 [(11, 1)]

/-- The frame of vector V1. -/
def frameV1 : List Byte := [0x02, 0x31, 0x36, 0x30, 0x32, 0x30, 0x30, 0x30, 0x30, 0x03, 0x37, 0x34]

/-- The frame of vector V4. -/
def frameV4 : List Byte := [0x02, 0x31, 0x36, 0x30, 0x32, 0x30, 0x30, 0x30, 0x38, 0x03, 0x36, 0x43]

/-- The block of V4 with its frame in flight. -/
def sending : State := { dotted with tstate := .ready, pending := some frameV4, inputs := [.event .atFire] }

/-- The block of V4 in the middle of a byte-level build, as the table of 95_test_vectors.md 2.3 has it. -/
def building (phase : Phase) (pos : BitVec 10) (acc : BitVec 16) (shreg : Byte) (bytes : Nat) : State :=
  { dotted with packer := { Packer.reset with
      phase := phase, pos := pos, acc := acc, shreg := shreg, out := frameV4.take bytes, masked := 0x94, check := 0x6C } }

/-! ## The selection table (30_encoding.md R82, R83): one ill-formed word per check -/

theorem test_smoke_legal_words : commandRows.all (fun row => legalWord row.matchBits) = true := by decide
theorem test_smoke_op_zero : legalWord 0x00000000000000000000 = false := by decide
theorem test_smoke_op_eight : legalWord 0x08000000000000000000 = false := by decide
theorem test_smoke_clear_b : legalWord 0x02000000000000000001 = false := by decide
theorem test_smoke_fill_imm8 : legalWord 0x03800000000000000000 = false := by decide
theorem test_smoke_setdot_imm8 : legalWord 0x04030000000000000000 = false := by decide
theorem test_smoke_build_a : legalWord 0x05000000000100000000 = false := by decide
theorem test_smoke_send_b : legalWord 0x06000000000080000000 = false := by decide
theorem test_smoke_encode_imm8 : legalWord 0x07010000000A00000000 = false := by decide
theorem test_smoke_encode_b : legalWord 0x07000000000A00000001 = false := by decide

/-! ## Decoding: the words of 95_test_vectors.md, one per constructor, and the rejections of R83 -/

theorem test_decode_config : decode 0x0101000000010000000E = .ok (.config 1 1 14) := by decide
theorem test_decode_clear : decode 0x02000000000000000000 = .ok .clear := by decide
theorem test_decode_fill : decode 0x03000000000000000000 = .ok .fill := by decide
theorem test_decode_setdot : decode 0x04010000000800000000 = .ok (.setdot 8 0 1) := by decide
theorem test_decode_setdot_unlit : decode 0x04000000000100000003 = .ok (.setdot 1 3 0) := by decide
theorem test_decode_build : decode 0x05000000000000000000 = .ok .build := by decide
theorem test_decode_send : decode 0x06000000000000000000 = .ok .send := by decide
theorem test_decode_encode : decode 0x0700FFFFFFFF00000000 = .ok (.encode 4294967295) := by decide
theorem test_decode_op_eight : decode 0x08000000000000000000 = .error (.unknownOperation 8) := by decide
theorem test_decode_clear_b : decode 0x02000000000000000001 = .error (.unusedFieldNotZero 2) := by decide

theorem test_decodeTableWord : decodeTableWord 80 0x04010000000100000003 = some (.setdot 1 3 1) := by decide
theorem test_decodeTableWord_rejects : decodeTableWord 80 0x04030000000000000000 = none := by decide

/-- `step` runs the word placed by `withFetchWord` as the first command after reset. -/
theorem test_withFetchWord_encode :
    answerOf (step (State.reset.withFetchWord 80 0x0700000000FF00000000)) = some ⟨.ok, [0x46, 0x46]⟩ := by decide

theorem test_withFetchWord_config :
    (stateOf (step (State.reset.withFetchWord 80 0x01060000000200000008))).map (fun t => (t.configured, t.rows))
      = some (true, 8) := by decide

/-! ## The commands, one step each -/

/-- 2.4: `CONFIG 1, 1, 14` makes ROWS 16 (E5). -/
theorem test_config_rounds : (stateOf (exec (.config 1 1 14) dotted)).map (fun t => (t.rows, t.bm)) = some (16, []) := by
  decide

/-- 2.4: rows that round to 2^32 do not fit. -/
theorem test_config_rows_too_many : answerOf (exec (.config 1 1 0xFFFFFFF9) dotted) = some ⟨.invalidArgument, []⟩ := by
  decide

/-- P1: `CLEAR` leaves no cell lit. -/
theorem test_clear : (stateOf (exec .clear dotted)).map (fun t => t.bm) = some [] := by decide

theorem test_clear_unconfigured : answerOf (exec .clear State.reset) = some ⟨.notConfigured, []⟩ := by decide

/-- V14: `FILL` lights the padding rows too. -/
theorem test_fill : (stateOf (exec .fill (panel 3 1 16 []))).map (fun t => (t.bm.read 0, t.bm.read 15, t.bm.read 16))
    = some (1, 1, 0) := by decide

/-- 2.4: `SETDOT 1, 7, 1` lights cell 15 of a 2 by 8 panel, and no other. -/
theorem test_setdot : (stateOf (exec (.setdot 1 7 1) dotted)).map (fun t => t.bm) = some [(11, 1), (15, 1)] := by decide

/-- 2.4: row 8 of 8 is out of range, although flat index 8 is a cell. -/
theorem test_setdot_row_out_of_range : (stateOf (exec (.setdot 0 8 1) dotted)).map (fun t => (t.bm, t.responses))
    = some ([(11, 1)], [⟨.indexOutOfRange, []⟩]) := by decide

/-- V4. -/
theorem test_build_V4 : answerOf (exec .build dotted) = some ⟨.ok, frameV4⟩ := by decide

/-- V7, the masked sum 0 and the check characters "00". -/
theorem test_build_V7 : answerOf (exec .build (panel 0 3 8 [(0, 1), (3, 1), (4, 1), (7, 1), (8, 1), (9, 1), (10, 1)]))
    = some ⟨.ok, [0x02, 0x31, 0x30, 0x30, 0x33, 0x39, 0x39, 0x30, 0x37, 0x30, 0x30, 0x03, 0x30, 0x30]⟩ := by decide

/-- 2.5: `SEND` under a ready transport holds the frame. -/
theorem test_send : (stateOf (exec .send { panel 6 2 8 [] with tstate := .ready })).map (fun t => t.pending)
    = some (some frameV1) := by decide

/-- 2.5: a second `SEND` is turned away. -/
theorem test_send_busy : (stateOf (exec .send sending)).map (fun t => (t.pending, t.responses))
    = some (some frameV4, [⟨.busy, []⟩]) := by decide

/-- 2.1. -/
theorem test_encode : answerOf (exec (.encode 165) State.reset) = some ⟨.ok, [0x41, 0x35]⟩ := by decide

theorem test_encode_256 : answerOf (exec (.encode 256) State.reset) = some ⟨.invalidArgument, []⟩ := by decide

/-! ## The transport's steps and the packer's -/

/-- 2.5: `@fire` writes the frame and frees PENDING. -/
theorem test_fire : (stateOf (step sending)).map (fun t => (t.txlog, t.pending)) = some (frameV4, none) := by decide

/-- 2.5: `@close` under a frame leaves the specification. -/
theorem test_close_pending : stepEvent .atClose sending = .refused .closeWhilePending := rfl

/-- R189, R201: `@close` during a byte-level SEND whose frame is not yet pending. -/
theorem test_close_during_build :
    (stateOf (step { building .hdr 2 52 0 2 with tstate := .ready, inputs := [.event .atClose] })).map
      (fun t => (t.tstate, t.packer.phase)) = some (.closed, .hdr) := by decide

/-- 2.3: HDR 2 emits 0x36 and ACC goes from 52 to 106. -/
theorem test_packer_header : (stateOf (step (building .hdr 2 52 0 2))).map
    (fun t => (t.packer.acc, t.packer.pos, t.packer.out)) = some (106, 3, [0x02, 0x31, 0x36]) := by decide

/-- 2.3: BODY 2 gathers packed byte 1, SHREG becomes 8, and ACC goes from 300 to 348. -/
theorem test_packer_body : (stateOf (step (building .body 2 300 0 7))).map
    (fun t => (t.packer.acc, t.packer.shreg, t.packer.out.getLast?)) = some (348, 8, some 0x30) := by decide

/-- 2.3: BODY 3 emits 0x38, ACC goes from 348 to 404, and the footer is next. -/
theorem test_packer_last_body : (stateOf (step (building .body 3 348 8 8))).map
    (fun t => (t.packer.acc, t.packer.phase, t.packer.out.getLast?)) = some (404, .ftr, some 0x38) := by decide

/-- 2.3: FTR 0 emits ETX, leaves ACC at 404 and computes S = 0x94 and K = 0x6C. -/
theorem test_packer_footer : (stateOf (step (building .ftr 0 404 0 9))).map
    (fun t => (t.packer.acc, t.packer.masked, t.packer.check, t.packer.out.getLast?))
      = some (404, 0x94, 0x6C, some 0x03) := by decide

/-! ## Witnesses: for each statement with hypotheses, a state and operands that meet them together -/

/-- The frame of V4 is a frame. -/
theorem frameV4_isFrame : IsFrame frameV4 := ⟨6, 2, 8, [(11, 1)], by decide, by decide, by decide, by decide⟩

theorem cells_fit (n : Nat) (h : n ≤ 2040) : n ≤ Config.CAP_CELLS :=
  Nat.le_trans h (Nat.le_add_right 2040 Config.capExtra)

/-- A state of the invariant with a frame in flight. -/
theorem sending_inv : Inv sending where
  canonical := by decide
  geometry := fun _ => ⟨by decide, by decide, cells_fit 16 (by decide)⟩
  pendingFrame := fun f h => by cases h; exact frameV4_isFrame
  sentFrames := ⟨[], by simp, rfl⟩
  cellsShifted := fun h => absurd rfl h
  building := fun h => absurd rfl h

/-- A state of the invariant in the middle of a build, at the last body step of V4. -/
theorem building_inv : Inv (building .body 3 348 8 8) where
  canonical := by decide
  geometry := fun _ => ⟨by decide, by decide, cells_fit 16 (by decide)⟩
  pendingFrame := fun f h => by cases h
  sentFrames := ⟨[], by simp, rfl⟩
  cellsShifted := fun _ => by decide
  building := fun _ => ⟨rfl, (fun h => by cases h), frameV4.take 5, by decide,
    ⟨by decide, by decide, by decide, fun _ => by decide⟩⟩

theorem witness_EncodeOfDecodeIsTheWord : decode 0x04010000000100000003 = .ok (.setdot 1 3 1) := by decide

theorem witness_DecodeSelectsByMaskAndMatch :
    rowSetdot ∈ commandRows ∧ (0x04010000000100000003 : CommandWord) &&& rowSetdot.maskBits = rowSetdot.matchBits := by
  decide

/-- A word offered at each of the two levels, a build's among them. -/
theorem witness_StepRunsTheDecodedCommand :
    dotted.packer.phase = .idle ∧ decode 0x05000000000000000000 = .ok .build ∧ decode 0x03000000000000000000 = .ok .fill
      ∧ { dotted with inputs := [.command 0x05000000000000000000] }.inputs = [.command 0x05000000000000000000]
      ∧ { dotted with inputs := [.serialCommand 0x03000000000000000000] }.inputs
        = [.serialCommand 0x03000000000000000000]
      ∧ Instr.fill ≠ .build ∧ Instr.fill ≠ .send := by decide

theorem witness_UnmatchedWordGetsIllegalCommand :
    dotted.packer.phase = .idle
      ∧ { dotted with inputs := [.serialCommand 0x04030000000000000000] }.inputs
        = [.serialCommand 0x04030000000000000000]
      ∧ ∀ row ∈ commandRows, (0x04030000000000000000 : CommandWord) &&& row.maskBits ≠ row.matchBits := by decide

theorem witness_EveryStepKeepsTheStateInvariant :
    (∃ t, Inv sending ∧ step sending = .next t) ∧ ∃ t, Inv (building .body 3 348 8 8)
      ∧ step (building .body 3 348 8 8) = .next t := ⟨⟨_, sending_inv, rfl⟩, _, building_inv, rfl⟩

theorem witness_ReachableStatesKeepTheGeometryAndFrames :
    ∃ s, Reachable s ∧ s.configured = true :=
  ⟨_, .step (State.reset.writeInputs [.command 0x01060000000200000008]) _ (.start _) rfl, by decide⟩

theorem witness_EncodeAnswersItsTwoCharacters :
    (255 : Word32).toNat ≤ 255 ∧ 255 < (256 : Word32).toNat := by decide

theorem witness_EncodedByteDecodesBack : 255 ≤ 255 ∧ enc 255 = enc 255 := by decide

theorem witness_RoundingGivesTheLeastMultipleOfEight : 8 ∣ 16 ∧ 14 ≤ 16 ∧ 8 ∣ 0 := by decide

/-- The largest row count, with no column, and the largest geometry every capacity holds. -/
theorem witness_ConfigConstructsTheInstance :
    ((0xFFFFFFF8 : Word32).toNat ≤ 0xFFFFFFF8
      ∧ (0 : Word32).toNat * (8 * (((0xFFFFFFF8 : Word32).toNat + 7) / 8)) ≤ Config.CAP_CELLS)
    ∧ (8 : Word32).toNat ≤ 0xFFFFFFF8
      ∧ (255 : Word32).toNat * (8 * (((8 : Word32).toNat + 7) / 8)) ≤ Config.CAP_CELLS :=
  ⟨⟨by decide, cells_fit _ (by decide)⟩, by decide, cells_fit _ (by decide)⟩

/-- The first clause at its boundary, and the second for every capacity a request can exceed at all. -/
theorem witness_ConfigRejectsWhatDoesNotFit :
    0xFFFFFFF8 < (0xFFFFFFF9 : Word32).toNat
      ∧ (Config.CAP_CELLS < 0xFFFFFFFF * 0xFFFFFFF8 → ∃ columns rowsReq : Word32,
        Config.CAP_CELLS < columns.toNat * (8 * ((rowsReq.toNat + 7) / 8))) :=
  ⟨by decide, fun h => ⟨0xFFFFFFFF, 0xFFFFFFF8, Nat.lt_of_lt_of_eq h (by decide)⟩⟩

theorem witness_ClearUnlightsEveryCell : dotted.configured = true ∧ 15 < dotted.columns.toNat * dotted.rows.toNat := by
  decide

theorem witness_FillLightsEveryCell : dotted.configured = true ∧ 15 < dotted.columns.toNat * dotted.rows.toNat := by
  decide

theorem witness_FilledPanelPacksToAllOnes :
    dotted.configured = true ∧ 1 < (dotted.rows.toNat * dotted.columns.toNat) / 8 := by decide

theorem witness_ClearFillClearGivesTheFreshFrame :
    (8 : Word32).toNat ≤ 0xFFFFFFF8
      ∧ (2 : Word32).toNat * (8 * (((8 : Word32).toNat + 7) / 8)) ≤ Config.CAP_CELLS :=
  ⟨by decide, cells_fit _ (by decide)⟩

theorem witness_SetdotWritesExactlyOneCell :
    dotted.configured = true ∧ dotted.bm.wf = true ∧ (1 : Word32).toNat < dotted.columns.toNat
      ∧ (7 : Word32).toNat < dotted.rows.toNat := by decide

theorem witness_SetdotOutOfBoundsChangesNothing :
    dotted.configured = true ∧ dotted.columns.toNat ≤ (2 : Word32).toNat ∧ dotted.rows.toNat ≤ (8 : Word32).toNat := by
  decide

/-- P5: rows 15 and 16 of a panel asked for with 14 rows meet the two clauses. -/
theorem witness_PaddingRowsAreOrdinaryRows :
    ((14 : Word32).toNat ≤ 0xFFFFFFF8 ∧ (0 : Word32).toNat < (1 : Word32).toNat
      ∧ (15 : Word32).toNat < 8 * (((14 : Word32).toNat + 7) / 8)
      ∧ ¬ (16 : Word32).toNat < 8 * (((14 : Word32).toNat + 7) / 8))
    ∧ (1 : Word32).toNat * (8 * (((14 : Word32).toNat + 7) / 8)) ≤ Config.CAP_CELLS :=
  ⟨by decide, cells_fit _ (by decide)⟩

theorem witness_DrawingCommandsAreIdempotent :
    dotted.bm.wf = true ∧ (∃ t, exec .clear dotted = .next t) ∧ (∃ t, exec .fill dotted = .next t)
      ∧ ∃ t, exec (.setdot 1 7 1) dotted = .next t := ⟨by decide, ⟨_, rfl⟩, ⟨_, rfl⟩, ⟨_, rfl⟩⟩

theorem witness_OnlyStoreCommandsChangeACell :
    ∃ t, step { dotted with inputs := [.command 0x02000000000000000000] } = .next t
      ∧ t.bm ≠ { dotted with inputs := [.command 0x02000000000000000000] }.bm := ⟨_, rfl, by decide⟩

theorem witness_OnlyConfigWritesTheGeometry :
    (∃ t, step { dotted with inputs := [.command 0x0101000000010000000E] } = .next t
      ∧ dotted.configured = true ∧ t.rows ≠ dotted.rows)
    ∧ ∃ t, step { State.reset with inputs := [.command 0x01060000000200000008] } = .next t
      ∧ t.configured ≠ State.reset.configured := ⟨⟨_, rfl, by decide, by decide⟩, _, rfl, by decide⟩

theorem witness_FlatIndexIsColumnMajor : (7 : Word32).toNat < (8 : Word32).toNat := by decide

theorem witness_PackedByteIsLeastSignificantCellFirst : 7 < 8 := by decide

/-- The last packed byte of V15's geometry, and its last cell. -/
theorem witness_PackedByteLiesInOneColumn :
    (16 : Word32).toNat % 8 = 0 ∧ 5 < ((16 : Word32).toNat * (3 : Word32).toNat) / 8 ∧ 7 < 8 := by decide

theorem witness_MemReadGivesBackWhatMemWriteStored : dotted.bm.wf = true ∧ 0xFF < 2 ^ 8 ∧ 7 < 8 ∧ 3 < 4 ∧ 4 + 8 ≤ 12 := by
  decide

/-- 255 packed bytes and address 207, the two limits. -/
theorem witness_BuildAnswersTheWholeFrame :
    (panel 207 255 8 []).configured = true
      ∧ ((panel 207 255 8 []).rows.toNat * (panel 207 255 8 []).columns.toNat) / 8 ≤ 255
      ∧ (panel 207 255 8 []).address.toNat ≤ 207 := by decide

theorem witness_BuildRejectsWhatHasNoFrame :
    (panel 9 256 8 []).configured = true
      ∧ 255 < ((panel 9 256 8 []).rows.toNat * (panel 9 256 8 []).columns.toNat) / 8
      ∧ 208 ≤ (panel 208 1 8 []).address.toNat := by decide

theorem witness_FrameLengthAgreesWithItsLengthField : frame 6 2 8 [(11, 1)] = some frameV4 := by decide

/-- Each clause at its index: STX, FTYPE, the address byte, a length character, ETX. -/
theorem witness_FrameAlphabetAndUniqueMarkers :
    frame 6 2 8 [(11, 1)] = some frameV4 ∧ frameV4[0]? = some 0x02 ∧ frameV4[1]? = some 0x31
      ∧ frameV4[2]? = some 0x36 ∧ frameV4[3]? = some 0x30 ∧ frameV4[9]? = some 0x03 := by decide

theorem witness_BytesAfterStxAndCheckSumToZero : frame 6 2 8 [(11, 1)] = some frameV4 := by decide

theorem witness_AccumulatorNeverOverflows :
    frame 0 0 0 [] = some [0x02, 0x31, 0x30, 0x30, 0x30, 0x03, 0x33, 0x43] := by decide

theorem witness_UnconfiguredCommandsAreTurnedAway :
    State.reset.configured = false ∧ Instr.fill.row ≠ rowConfig ∧ Instr.fill.row ≠ rowEncode
      ∧ (Instr.encode 10).row = rowEncode ∧ (Instr.config 6 2 8).row = rowConfig := by decide

theorem witness_FailuresChangeNothing :
    answerOf (stepCommand 0x06000000000000000000 dotted) = some ⟨.transportUnavailable, []⟩
      ∧ answerOf (stepCommand 0x08000000000000000000 dotted) = some ⟨.illegalCommand, []⟩ := by decide

theorem witness_ResponsesHaveTheirCodesAndPayloads :
    ∃ t, exec .build dotted = .next t ∧ t.responses = dotted.responses ++ [⟨.ok, frameV4⟩] := ⟨_, rfl, by decide⟩

theorem witness_SendHoldsTheFrameOfTheMoment :
    { panel 207 255 8 [] with tstate := .ready }.configured = true
      ∧ { panel 207 255 8 [] with tstate := .ready }.tstate = .ready
      ∧ { panel 207 255 8 [] with tstate := .ready }.pending = none
      ∧ ((panel 207 255 8 []).rows.toNat * (panel 207 255 8 []).columns.toNat) / 8 ≤ 255
      ∧ (panel 207 255 8 []).address.toNat ≤ 207 := by decide

/-- One state for each of the four failures of `SEND`, the last by its count and by its address. -/
theorem witness_SendFailsInTheStatedOrder :
    State.reset.configured = false
      ∧ (dotted.configured = true ∧ dotted.tstate ≠ .ready)
      ∧ (sending.configured = true ∧ sending.tstate = .ready ∧ sending.pending ≠ none)
      ∧ ({ panel 9 256 8 [] with tstate := .ready }.tstate = .ready
        ∧ { panel 9 256 8 [] with tstate := .ready }.pending = none
        ∧ 255 < ((panel 9 256 8 []).rows.toNat * (panel 9 256 8 []).columns.toNat) / 8)
      ∧ 208 ≤ { panel 208 1 8 [] with tstate := .ready }.address.toNat := by decide

theorem witness_CommandsLeaveAPendingFrameAlone : sending.pending = some frameV4 := by decide

theorem witness_FireWritesThePendingFrame :
    sending.inputs = [.event .atFire] ∧ sending.pending = some frameV4 ∧ sending.tstate = .ready := by decide

/-- An input list for each event, a state for each branch: closed, ready, in flight, nothing pending. -/
theorem witness_EventsHappenExactlyWhereEnabled :
    ({ State.reset with inputs := [.event .atOpen] }.inputs = [.event .atOpen] ∧ State.reset.tstate = .closed)
      ∧ ({ State.reset with inputs := [.event .atReady] }.inputs = [.event .atReady])
      ∧ ({ sending with inputs := [.event .atClose] }.inputs = [.event .atClose] ∧ sending.tstate ≠ .closed
        ∧ sending.pending ≠ none ∧ { dotted with tstate := .ready }.pending = none)
      ∧ (sending.inputs = [.event .atFire] ∧ sending.pending = some frameV4 ∧ sending.tstate = .ready
        ∧ dotted.pending = none) := by decide

theorem witness_TransmissionsAreWholePendingFrames : ∃ t, step sending = .next t := ⟨_, rfl⟩

theorem witness_OnlyFireClearsAPendingFrame :
    Inv sending ∧ sending.pending = some frameV4 ∧ ∃ t, step sending = .next t := ⟨sending_inv, rfl, _, rfl⟩

/-- The block of V4 after its frame is written. -/
def sent : State := { dotted with tstate := .ready, txlog := frameV4 }

/-- The run in which the timer fires at once and nothing more is offered. -/
def firing (n : Nat) : State := if n = 0 then sending else sent

theorem firing_isRun : IsRun firing
  | 0 => ⟨sent, [], rfl, rfl⟩
  | _ + 1 => ⟨sent, [], rfl, rfl⟩

theorem firing_fair : FairTimer firing := fun n h => absurd (h (n + 1) (Nat.le_succ n)) (show ¬ sent.fireEnabled = true by decide)

theorem witness_APendingFrameCanAlwaysBeWritten :
    (Inv sending ∧ sending.pending = some frameV4 ∧ sending.tstate = .ready ∧ sending.inputs = [.event .atFire])
      ∧ IsRun firing ∧ FairTimer firing ∧ Inv (firing 0) ∧ (firing 0).pending = some frameV4
      ∧ (firing 0).tstate = .ready :=
  ⟨⟨sending_inv, rfl, rfl, rfl⟩, firing_isRun, firing_fair, sending_inv, rfl, rfl⟩

/-- A `BUILD` and a `SEND` offered at the byte level to the block of V4. -/
theorem witness_BuildStartsAfterItsChecks :
    dotted.packer.phase = .idle ∧ dotted.configured = true
      ∧ { dotted with inputs := [.serialCommand 0x05000000000000000000] }.inputs
        = [.serialCommand 0x05000000000000000000]
      ∧ decode 0x05000000000000000000 = .ok .build ∧ decode 0x06000000000000000000 = .ok .send
      ∧ { dotted with tstate := .ready }.tstate = .ready ∧ dotted.pending = none
      ∧ (dotted.rows.toNat * dotted.columns.toNat) / 8 ≤ 255 ∧ dotted.address.toNat ≤ 207 := by decide

theorem witness_FailedChecksStartNoBuild :
    (∃ t, exec .send dotted = .next t ∧ t.responses = dotted.responses ++ [⟨.transportUnavailable, []⟩])
      ∧ ∃ t, exec .build State.reset = .next t ∧ t.responses = State.reset.responses ++ [⟨.notConfigured, []⟩] :=
  ⟨⟨_, rfl, by decide⟩, _, rfl, by decide⟩

/-- The first and the last header position of V4. -/
theorem witness_HeaderStepEmitsOneHeaderByte :
    (building .hdr 0 1 0 0).packer.phase = .hdr ∧ (building .hdr 4 154 0 4).packer.pos.toNat ≤ 4
      ∧ (dotted.rows.toNat * dotted.columns.toNat) / 8 ≤ 255 ∧ dotted.address.toNat ≤ 207
      ∧ ([0x02, 0x31, BitVec.ofNat 8 (dotted.address.toNat + 0x30)]
        ++ Spec.encChars ((dotted.rows.toNat * dotted.columns.toNat) / 8))[0]? = some 0x02
      ∧ ([0x02, 0x31, BitVec.ofNat 8 (dotted.address.toNat + 0x30)]
        ++ Spec.encChars ((dotted.rows.toNat * dotted.columns.toNat) / 8))[4]? = some 0x32 := by decide

theorem witness_EvenBodyStepGathersAPackedByte :
    (building .body 2 300 0 7).packer.phase = .body ∧ (building .body 2 300 0 7).packer.pos.toNat = 2 * 1
      ∧ 1 < (dotted.rows.toNat * dotted.columns.toNat) / 8 := by decide

theorem witness_OddBodyStepEmitsTheLowCharacter :
    (building .body 3 348 8 8).packer.phase = .body ∧ (building .body 3 348 8 8).packer.pos.toNat = 2 * 1 + 1
      ∧ 1 < (dotted.rows.toNat * dotted.columns.toNat) / 8 := by decide

theorem witness_FooterStepsEmitEtxAndCheck :
    ((building .ftr 0 404 0 9).packer.phase = .ftr ∧ (building .ftr 0 404 0 9).packer.pos = 0)
      ∧ (building .ftr 1 404 0 10).packer.pos = 1 ∧ (building .ftr 2 404 0 11).packer.pos = 2 := by decide

theorem witness_PhaseMovesInOrder :
    (∃ t, step (building .hdr 4 154 0 4) = .next t ∧ t.packer.phase = .body)
      ∧ ∃ t, exec .fill dotted = .next t := ⟨⟨_, rfl, by decide⟩, _, rfl⟩

theorem witness_CommandsWaitDuringABuild :
    (building .ftr 0 404 0 9).packer.phase ≠ .idle
      ∧ ∃ t, step { building .ftr 0 404 0 9 with inputs := [.command 0x03000000000000000000] } = .next t :=
  ⟨by decide, _, rfl⟩

theorem witness_EventsTouchOnlyTransportState : ∃ t, stepEvent .atFire sending = .next t := ⟨_, rfl⟩

/-- `BUILD` and `SEND` on the block of V4, with nothing and with a further command behind them. -/
theorem witness_ByteLevelBuildAgreesWithTheCommand :
    dotted.packer.phase = .idle ∧ dotted.configured = true ∧ dotted.frame = some frameV4
      ∧ decode 0x05000000000000000000 = .ok .build ∧ decode 0x06000000000000000000 = .ok .send
      ∧ { dotted with tstate := .ready }.tstate = .ready ∧ dotted.pending = none
      ∧ { dotted with inputs := [.serialCommand 0x05000000000000000000, .command 0] }.inputs
        = [.serialCommand 0x05000000000000000000, .command 0] := by decide

end Sys2Proof.Tests
end

section
/-! The step of a word that decodes, at either level. -/

namespace Sys2Proof.Machine

theorem stepCommand_of_decode {w : CommandWord} {i : Instr} (hd : decode w = .ok i) (s : State) :
    stepCommand w s = exec i s := by
  rw [stepCommand, hd]

theorem stepSerialCommand_of_decode {w : CommandWord} {i : Instr} (hd : decode w = .ok i) (s : State) :
    stepSerialCommand w s = execSerial i s := by
  rw [stepSerialCommand, hd]

/-- Only `BUILD` and `SEND` take more than one step at the byte level (70_reset_and_hazards.md R264). -/
theorem execSerial_eq_exec {i : Instr} (hb : i ≠ .build) (hs : i ≠ .send) (s : State) :
    execSerial i s = exec i s := by
  cases i with
  | build => exact absurd rfl hb
  | send => exact absurd rfl hs
  | config _ _ _ | clear | fill | setdot _ _ _ | encode _ => rfl

/-- Settles O5: the step takes the offered word, the word decodes to `i`, and at the byte level only `BUILD` and `SEND`
differ from their atomic commands. -/
theorem stepRunsTheDecodedCommand : Obligations.StepRunsTheDecodedCommand := by
  intro s w rest i hidle hd
  refine ⟨fun hin => ?_, fun hin => ?_⟩
  · calc step s = stepCommand w (s.writeInputs rest) := step_command s w rest hidle hin
      _ = exec i (s.writeInputs rest) := stepCommand_of_decode hd _
  · have hserial : step s = execSerial i (s.writeInputs rest) :=
      (step_serialCommand s w rest hidle hin).trans (stepSerialCommand_of_decode hd _)
    exact ⟨hserial, fun hb hs => hserial.trans (execSerial_eq_exec hb hs _)⟩

end Sys2Proof.Machine
end

section
/-! The outcomes of a step, with the two levels of the command port taken together. -/

namespace Sys2Proof.Machine

/-- What a step of the machine does, the words of both levels together: nothing, a whole command, a failure, the start of
a byte-level build, an event, or a step of the packer. -/
theorem step_outcomes (s t : State) (h : step s = .next t) :
    t = s
    ∨ (s.packer.phase = .idle ∧ ∃ w rest i, (s.inputs = .command w :: rest ∨ s.inputs = .serialCommand w :: rest)
      ∧ decode w = .ok i ∧ exec i (s.writeInputs rest) = .next t)
    ∨ (∃ rest st, t = (s.writeInputs rest).raise st)
    ∨ (s.configured = true ∧ ∃ rest o hd, headerBytes s.address s.packedCount = some hd
      ∧ (o = .send → s.pending = none) ∧ t = startBuild o (s.writeInputs rest))
    ∨ (∃ e rest, s.inputs = .event e :: rest ∧ stepEvent e (s.writeInputs rest) = .next t)
    ∨ (s.packer.phase ≠ .idle ∧ ∃ rest, stepPacker (s.writeInputs rest) = .next t) := by
  rcases step_cases s t h with
    ⟨-, -, rfl⟩ | ⟨hidle, w, rest, hin, hw⟩ | ⟨hidle, w, rest, hin, hw⟩ | hevent | ⟨hbusy, rest, -, hpack⟩
  · exact .inl rfl
  · rcases stepCommand_cases w (s.writeInputs rest) with ⟨i, hd, he⟩ | ⟨-, -, he⟩ <;> rw [he] at hw
    · exact .inr (.inl ⟨hidle, w, rest, i, .inl hin, hd, hw⟩)
    · cases hw
      exact .inr (.inr (.inl ⟨rest, _, rfl⟩))
  · rcases stepSerialCommand_cases w (s.writeInputs rest) with ⟨i, hd, he⟩ | ⟨-, -, he⟩ <;> rw [he] at hw
    · rcases execSerial_cases i _ t hw with ⟨hx, -, -⟩ | ⟨-, st, rfl⟩ | ⟨hc, o, hd', hh, rfl, ho⟩
      · exact .inr (.inl ⟨hidle, w, rest, i, .inr hin, hd, hx⟩)
      · exact .inr (.inr (.inl ⟨rest, st, rfl⟩))
      · refine .inr (.inr (.inr (.inl ⟨hc, rest, o, hd', hh, fun hsend => ?_, rfl⟩)))
        rcases ho with ⟨-, hbuild⟩ | ⟨-, -, -, hpend⟩
        · cases hsend.symm.trans hbuild
        · exact hpend
    · cases hw
      exact .inr (.inr (.inl ⟨rest, _, rfl⟩))
  · exact .inr (.inr (.inr (.inr (.inl hevent))))
  · exact .inr (.inr (.inr (.inr (.inr ⟨hbusy, rest, hpack⟩))))

end Sys2Proof.Machine
end

section
/-! The invariant under each write of the state, each command, each event and each step of the packer. -/

namespace Sys2Proof.Machine

/-! ## Arithmetic and frames -/

/-- A cell in bounds lies inside the bitmap (20_memory.md R51, R60). -/
theorem flatIndex_lt_cellCount {s : State} {column row : Word32} (h : s.inBounds column row = true) :
    flatIndex s.rows column row < cellCount s.columns s.rows := by
  obtain ⟨hcol, hrow⟩ := (inBounds_iff s column row).1 h
  calc column.toNat * s.rows.toNat + row.toNat
      < (column.toNat + 1) * s.rows.toNat := by rw [Nat.succ_mul]; omega
    _ ≤ s.columns.toNat * s.rows.toNat := Nat.mul_le_mul_right _ hcol

/-- What the frame function answers for a configured state of the invariant is a frame. -/
theorem Inv.isFrame_of_frame {s : State} (h : Inv s) (hc : s.configured = true) {f : List Byte}
    (hf : s.frame = some f) : IsFrame f := by
  obtain ⟨hrows, hwithin, -⟩ := h.geometry hc
  exact ⟨s.address, s.columns, s.rows, s.bm, hrows, h.canonical, hwithin, hf⟩

/-! ## Writes of the state -/

theorem Inv.writeInputs {s : State} (h : Inv s) (inputs : List Input) : Inv (s.writeInputs inputs) :=
  ⟨h.canonical, h.geometry, h.pendingFrame, h.sentFrames, h.cellsShifted, h.building⟩

theorem Inv.respond {s : State} (h : Inv s) (st : Status) (payload : List Byte) : Inv (s.respond st payload) :=
  ⟨h.canonical, h.geometry, h.pendingFrame, h.sentFrames, h.cellsShifted, h.building⟩

theorem Inv.writeTState {s : State} (h : Inv s) (ts : TState) : Inv (s.writeTState ts) :=
  ⟨h.canonical, h.geometry, h.pendingFrame, h.sentFrames, h.cellsShifted, h.building⟩

theorem Inv.transmit {s : State} (h : Inv s) {f : List Byte} (hf : IsFrame f) : Inv (s.transmit f) := by
  refine ⟨h.canonical, h.geometry, h.pendingFrame, ?_, h.cellsShifted, h.building⟩
  obtain ⟨fs, hfs, hlog⟩ := h.sentFrames
  refine ⟨fs ++ [f], fun g hg => ?_, by simp [hlog]⟩
  rcases List.mem_append.1 hg with hg | hg
  · exact hfs g hg
  · exact List.mem_singleton.1 hg ▸ hf

/-- `PENDING` may take a frame while no build is in progress, and be cleared at any time. -/
theorem Inv.writePending {s : State} (h : Inv s) {p : Option (List Byte)} (hf : ∀ f, p = some f → IsFrame f)
    (hfree : s.packer.phase ≠ .idle → p = none) : Inv (s.writePending p) := by
  refine ⟨h.canonical, h.geometry, hf, h.sentFrames, h.cellsShifted, fun hbusy => ?_⟩
  obtain ⟨hc, -, hstands⟩ := h.building hbusy
  exact ⟨hc, fun _ => hfree hbusy, hstands⟩

/-- The packer may be written with a build that stands, or with no build. -/
theorem Inv.writePacker {s : State} (h : Inv s) {q : Packer} (hcells : q.phase ≠ .idle → q.bitcnt.toNat ≤ 8)
    (hbuild : q.phase ≠ .idle → s.configured = true ∧ (q.owner = .send → s.pending = none)
      ∧ ∃ header, headerBytes s.address s.packedCount = some header
        ∧ BuildStands q header (bodyBytes s.bm s.packedCount) s.bm) : Inv (s.writePacker q) :=
  ⟨h.canonical, h.geometry, h.pendingFrame, h.sentFrames, hcells, hbuild⟩

/-- The build whose checks have passed starts standing (44_serial_frame_packer.md R177). -/
theorem Inv.startBuild {s : State} (h : Inv s) (hc : s.configured = true) {owner : BuildOwner} {header : List Byte}
    (hh : headerBytes s.address s.packedCount = some header) (hfree : owner = .send → s.pending = none) :
    Inv (startBuild owner s) :=
  h.writePacker (fun _ => Nat.zero_le 8)
    (fun _ => ⟨hc, hfree, header, hh, startBuild_stands owner s header _ s.bm⟩)

/-! ## Commands -/

/-- A command keeps the bitmap canonical and, once configured, inside a geometry of R40 (a) to (c). -/
theorem Inv.exec_bitmap {s t : State} (h : Inv s) {i : Instr} (he : exec i s = .next t) :
    t.bm.wf = true ∧ (t.configured = true → t.rows.toNat % 8 = 0
      ∧ t.bm.within (cellCount t.columns t.rows) = true ∧ cellCount t.columns t.rows ≤ Config.CAP_CELLS) := by
  obtain ⟨-, -, -, -, -, -, -, hbitmap⟩ := exec_effect i s t he
  rcases hbitmap with ⟨hbm, -, hcol, hrow, hconf⟩ | ⟨hc, -, hcol, hrow, -, hdraw⟩ | ⟨-, -, -, -, -, hbm, hmod, hcap⟩
  · rw [hbm, hcol, hrow, hconf]
    exact ⟨h.canonical, h.geometry⟩
  · obtain ⟨hmod, hwithin, hcap⟩ := h.geometry hc
    rw [hcol, hrow]
    rcases hdraw with ⟨-, hbm⟩ | ⟨-, hbm⟩ | ⟨c, r, l, -, hin, hbm⟩ <;> rw [hbm]
    · exact ⟨Memory.replicate_wf _ _, fun _ => ⟨hmod, Memory.replicate_within _ _, hcap⟩⟩
    · exact ⟨Memory.replicate_wf _ _, fun _ => ⟨hmod, Memory.replicate_within _ _, hcap⟩⟩
    · exact ⟨Memory.write_wf _ _ _ h.canonical,
        fun _ => ⟨hmod, Memory.write_within _ _ _ _ hwithin (flatIndex_lt_cellCount hin), hcap⟩⟩
  · rw [hbm]
    exact ⟨rfl, fun _ => ⟨hmod, rfl, hcap⟩⟩

/-- A command leaves in `PENDING` what was there, or the frame a `SEND` built (45_transport_send.md R203, R204). -/
theorem Inv.exec_pendingFrame {s t : State} (h : Inv s) {i : Instr} (he : exec i s = .next t) :
    ∀ f, t.pending = some f → IsFrame f := by
  obtain ⟨-, -, -, -, -, -, hpend, -⟩ := exec_effect i s t he
  rcases hpend with hsame | ⟨-, -, -, hc, f, hf, hp⟩
  · rw [hsame]
    exact h.pendingFrame
  · intro g hg
    cases hp.symm.trans hg
    exact h.isFrame_of_frame hc hf

/-- A command taken while no build is in progress keeps the invariant. -/
theorem Inv.exec {s t : State} (h : Inv s) (hidle : s.packer.phase = .idle) {i : Instr}
    (he : exec i s = .next t) : Inv t := by
  obtain ⟨-, -, hpacker, -, hlog, -, -, -⟩ := exec_effect i s t he
  obtain ⟨hwf, hgeo⟩ := h.exec_bitmap he
  have hidle' : t.packer.phase = .idle := hpacker ▸ hidle
  exact ⟨hwf, hgeo, h.exec_pendingFrame he, hlog ▸ h.sentFrames, absurd hidle', absurd hidle'⟩

/-! ## Events -/

/-- A step of the transport or of the timer keeps the invariant, during a build too (45_transport_send.md R201, R207). -/
theorem Inv.stepEvent {s t : State} (h : Inv s) {e : Event} (he : stepEvent e s = .next t) : Inv t := by
  rcases stepEvent_cases e s t he with ⟨-, -, rfl⟩ | ⟨-, -, rfl⟩ | ⟨-, -, -, rfl⟩ | ⟨-, -, f, hf, rfl⟩
  · exact h.writeTState _
  · exact h.writeTState _
  · exact h.writeTState _
  · exact (h.transmit (h.pendingFrame f hf)).writePending (fun g hg => nomatch hg) (fun _ => rfl)

/-! ## The packer -/

/-- A header step keeps the command it serves. -/
theorem Packer.afterHeader_owner (p : Packer) (n : Nat) : (p.afterHeader n).owner = p.owner := by
  unfold Packer.afterHeader; split <;> rfl

/-- A header step gathers no cell. -/
theorem Packer.afterHeader_bitcnt (p : Packer) (n : Nat) : (p.afterHeader n).bitcnt = p.bitcnt := by
  unfold Packer.afterHeader; split <;> rfl

theorem Packer.highHalf_owner (p : Packer) (bm : Memory) : (p.highHalf bm).owner = p.owner := by
  rw [Packer.highHalf, Packer.gather_eq]; rfl

/-- The high half of a body step has gathered a whole packed byte. -/
theorem Packer.highHalf_bitcnt (p : Packer) (bm : Memory) : (p.highHalf bm).bitcnt = 8 := by
  rw [Packer.highHalf, Packer.gather_eq]; rfl

theorem Packer.lowHalf_owner (p : Packer) (n : Nat) : (p.lowHalf n).owner = p.owner := by
  unfold Packer.lowHalf; simp only; split <;> rfl

theorem Packer.lowHalf_bitcnt (p : Packer) (n : Nat) : (p.lowHalf n).bitcnt = 0 := by
  unfold Packer.lowHalf; simp only; split <;> rfl

/-- A build in progress may move on to any packer that serves the same command and stands where it should. -/
theorem Inv.moveBuild {s : State} (h : Inv s) (hbusy : s.packer.phase ≠ .idle) {q : Packer}
    (howner : q.owner = s.packer.owner) (hcells : q.bitcnt.toNat ≤ 8)
    (hstands : ∀ header, headerBytes s.address s.packedCount = some header →
      BuildStands s.packer header (bodyBytes s.bm s.packedCount) s.bm →
      BuildStands q header (bodyBytes s.bm s.packedCount) s.bm) : Inv (s.writePacker q) := by
  obtain ⟨hc, hfree, header, hh, hs⟩ := h.building hbusy
  exact h.writePacker (fun _ => hcells) (fun _ => ⟨hc, howner ▸ hfree, header, hh, hstands header hh hs⟩)

/-- The last footer step leaves a whole frame, which goes to the response or to `PENDING` (R182, R183). -/
theorem Inv.finishBuild {s : State} (h : Inv s) (hftr : s.packer.phase = .ftr) (hlast : s.packer.pos = 2) :
    Inv (finishBuild (s.writePacker s.packer.footerLow)) := by
  obtain ⟨hc, -, header, hh, hs⟩ := h.building (by simp [hftr])
  have hidle : s.packer.footerLow.phase = .idle := rfl
  have hframe : s.frame = some s.packer.footerLow.out := by
    rw [footerLow_out _ _ _ _ hftr hs hlast]
    exact frame_of_header _ _ _ _ header hh
  have hwritten : Inv (s.writePacker s.packer.footerLow) := h.writePacker (absurd hidle) (absurd hidle)
  unfold Machine.finishBuild
  split
  · exact hwritten.respond _ _
  · refine (hwritten.writePending (fun f hf => ?_) (absurd hidle)).respond _ _
    cases hf
    exact h.isFrame_of_frame hc hframe

/-- A step of the packer keeps the invariant: each phase moves the build one byte on (R178, R179, R182). -/
theorem Inv.stepPacker {s t : State} (h : Inv s) (hbusy : s.packer.phase ≠ .idle)
    (he : stepPacker s = .next t) : Inv t := by
  have hcells := h.cellsShifted hbusy
  have hcount {header : List Byte} (hh : headerBytes s.address s.packedCount = some header) : s.packedCount ≤ 255 :=
    ((headerBytes_eq_some _ _ _).1 hh).1
  rcases stepPacker_cases s t he with
    ⟨hhdr, header, b, hh, hb, rfl⟩ | ⟨hbody, -, heven, rfl⟩ | ⟨hbody, -, hodd, rfl⟩ | ⟨hftr, h0, rfl⟩
    | ⟨hftr, h1, rfl⟩ | ⟨hftr, h2, rfl⟩
  · refine h.moveBuild hbusy (Packer.afterHeader_owner _ _) ?_ (fun header' hh' hs => ?_)
    · rw [Packer.afterHeader_bitcnt]
      exact hcells
    · cases hh.symm.trans hh'
      exact headerStep_stands _ _ _ _ _ _ (headerBytes_length _ _ _ hh) (bodyBytes_length _ _) hhdr hs hb
  · refine h.moveBuild hbusy (Packer.highHalf_owner _ _) ?_ (fun header hh hs => ?_)
    · rw [Packer.highHalf_bitcnt]
      decide
    · exact highHalf_stands _ _ _ _ (hcount hh) hbody hs heven
  · refine h.moveBuild hbusy (Packer.lowHalf_owner _ _) ?_ (fun header hh hs => ?_)
    · rw [Packer.lowHalf_bitcnt]
      decide
    · exact lowHalf_stands _ _ _ _ (hcount hh) hbody hs hodd
  · exact h.moveBuild hbusy rfl hcells (fun _ _ hs => footerEtx_stands _ _ _ _ hftr hs h0)
  · exact h.moveBuild hbusy rfl hcells (fun _ _ hs => footerHigh_stands _ _ _ _ hftr hs h1)
  · exact h.finishBuild hftr h2

/-! ## The step, and every reachable state -/

/-- Settles O9: each outcome of a step is a write of the state that keeps the invariant. -/
theorem everyStepKeepsTheStateInvariant : Obligations.EveryStepKeepsTheStateInvariant := by
  intro s t h hstep
  rcases step_outcomes s t hstep with
    rfl | ⟨hidle, -, rest, i, -, -, hexec⟩ | ⟨rest, st, rfl⟩ | ⟨hc, rest, o, hd, hh, hfree, rfl⟩
    | ⟨e, rest, -, hevent⟩ | ⟨hbusy, rest, hpack⟩
  · exact h
  · exact (h.writeInputs rest).exec hidle hexec
  · exact (h.writeInputs rest).respond st []
  · exact (h.writeInputs rest).startBuild hc hh hfree
  · exact (h.writeInputs rest).stepEvent hevent
  · exact (h.writeInputs rest).stepPacker hbusy hpack

/-- Settles O8: the bitmap lists no cell, nothing is pending or sent, and no build is in progress. -/
theorem resetMeetsTheInvariant : Obligations.ResetMeetsTheInvariant := fun _ =>
  { canonical := rfl
    geometry := fun hc => nomatch hc
    pendingFrame := fun _ hf => nomatch hf
    sentFrames := ⟨[], fun _ hf => (nomatch hf), rfl⟩
    cellsShifted := absurd rfl
    building := absurd rfl }

/-- The invariant holds at reset and every step keeps it, so it holds in every reachable state. -/
theorem Reachable.inv {s : State} (h : Reachable s) : Inv s := by
  induction h with
  | start inputs => exact resetMeetsTheInvariant inputs
  | step s t _ hstep ih => exact everyStepKeepsTheStateInvariant s t ih hstep

/-- Settles O10: R40 (a) to (e) are read off the invariant, and a cell outside the geometry is not listed. -/
theorem reachableStatesKeepTheGeometryAndFrames : Obligations.ReachableStatesKeepTheGeometryAndFrames := by
  intro s hr hc
  have h := hr.inv
  obtain ⟨hrows, hwithin, hcap⟩ := h.geometry hc
  refine ⟨hrows, fun i hi => Memory.read_of_within _ _ i hwithin hi, hcap, ?_, h.sentFrames⟩
  cases hp : s.pending with
  | none => exact .inl rfl
  | some f => exact .inr ⟨f, rfl, h.pendingFrame f hp⟩

/-- Settles O7: each value is the one `State.reset` writes out. -/
theorem resetLeavesTheSpecifiedValues : Obligations.ResetLeavesTheSpecifiedValues :=
  ⟨rfl, rfl, rfl, rfl, rfl⟩

end Sys2Proof.Machine
end

section
/-! What a step leaves of the geometry registers and of TXLOG. -/

namespace Sys2Proof.Machine

/-- `CONFIG` is the command of its row (30_encoding.md R82). -/
theorem row_config (address : Byte) (columns rows : Word32) : (Instr.config address columns rows).row = rowConfig := rfl

/-- `t` has the geometry registers and `CONFIGURED` of `s`. -/
def SameGeometry (s t : State) : Prop :=
  t.address = s.address ∧ t.columns = s.columns ∧ t.rows = s.rows ∧ t.configured = s.configured

/-- Taking an input leaves the geometry alone. -/
theorem SameGeometry.of_writeInputs {s t : State} {rest : List Input} (h : SameGeometry (s.writeInputs rest) t) :
    SameGeometry s t := h

/-- A command keeps the geometry or is a `CONFIG` that set it (10_state.md R24, R25). -/
theorem exec_geometry {i : Instr} {s t : State} (h : exec i s = .next t) :
    SameGeometry s t ∨ (t.configured = true ∧ i.row = rowConfig) := by
  obtain ⟨-, -, -, -, -, -, -, hgeo⟩ := exec_effect i s t h
  rcases hgeo with ⟨-, ha, hcol, hrow, hc⟩ | ⟨-, ha, hcol, hrow, hc, -⟩ | ⟨a, c, r, rfl, hc, -⟩
  · exact .inl ⟨ha, hcol, hrow, hc⟩
  · exact .inl ⟨ha, hcol, hrow, hc⟩
  · exact .inr ⟨hc, row_config a c r⟩

theorem stepEvent_geometry {e : Event} {s t : State} (h : stepEvent e s = .next t) : SameGeometry s t := by
  rcases stepEvent_cases e s t h with ⟨-, -, rfl⟩ | ⟨-, -, rfl⟩ | ⟨-, -, -, rfl⟩ | ⟨-, -, f, -, rfl⟩
  all_goals exact ⟨rfl, rfl, rfl, rfl⟩

theorem stepPacker_geometry {s t : State} (h : stepPacker s = .next t) : SameGeometry s t := by
  obtain ⟨-, ha, hcol, hrow, hc, -⟩ := stepPacker_effect s t h
  exact ⟨ha, hcol, hrow, hc⟩

/-- A step keeps the geometry or takes a word that decodes to `CONFIG`, after which `CONFIGURED` is set. -/
theorem step_geometry {s t : State} (h : step s = .next t) :
    SameGeometry s t
    ∨ (t.configured = true
      ∧ ∃ w rest i, (s.inputs = .command w :: rest ∨ s.inputs = .serialCommand w :: rest) ∧ decode w = .ok i
        ∧ i.row = rowConfig) := by
  rcases step_outcomes s t h with
    rfl | ⟨-, w, rest, i, hin, hd, hexec⟩ | ⟨rest, st, rfl⟩ | ⟨-, rest, o, hd, -, -, rfl⟩ | ⟨e, rest, -, hevent⟩
    | ⟨-, rest, hpack⟩
  · exact .inl ⟨rfl, rfl, rfl, rfl⟩
  · exact (exec_geometry hexec).imp SameGeometry.of_writeInputs (fun ⟨hc, hrow⟩ => ⟨hc, w, rest, i, hin, hd, hrow⟩)
  · exact .inl ⟨rfl, rfl, rfl, rfl⟩
  · exact .inl ⟨rfl, rfl, rfl, rfl⟩
  · exact .inl (stepEvent_geometry hevent).of_writeInputs
  · exact .inl (stepPacker_geometry hpack).of_writeInputs

/-- Settles O25: a step that does not take a `CONFIG` keeps all four registers, and a `CONFIG` leaves `CONFIGURED` set. -/
theorem onlyConfigWritesTheGeometry : Obligations.OnlyConfigWritesTheGeometry := by
  intro s t h
  rcases step_geometry h with ⟨ha, hcol, hrow, hc⟩ | ⟨hc, htaken⟩
  · refine ⟨fun hs => hc.trans hs, fun hchanged => ?_⟩
    rcases hchanged with hne | hne | hne | hne
    · exact absurd ha hne
    · exact absurd hcol hne
    · exact absurd hrow hne
    · exact absurd hc hne
  · exact ⟨fun _ => hc, fun _ => htaken⟩

/-- Settles O48: of the outcomes of a step only `@fire` writes TXLOG, and it appends the pending frame. -/
theorem transmissionsAreWholePendingFrames : Obligations.TransmissionsAreWholePendingFrames := by
  refine ⟨rfl, fun s t h => ?_⟩
  rcases step_outcomes s t h with
    rfl | ⟨-, w, rest, i, -, -, hexec⟩ | ⟨rest, st, rfl⟩ | ⟨-, rest, o, hd, -, -, rfl⟩ | ⟨e, rest, hin, hevent⟩
    | ⟨-, rest, hpack⟩
  · exact .inl rfl
  · obtain ⟨-, -, -, -, hlog, -⟩ := exec_effect i _ t hexec
    exact .inl hlog
  · exact .inl rfl
  · exact .inl rfl
  · rcases stepEvent_cases e _ t hevent with
      ⟨-, -, rfl⟩ | ⟨-, -, rfl⟩ | ⟨-, -, -, rfl⟩ | ⟨rfl, hready, f, hf, rfl⟩
    · exact .inl rfl
    · exact .inl rfl
    · exact .inl rfl
    · exact .inr ⟨f, rest, hin, hf, hready, rfl, rfl⟩
  · obtain ⟨-, -, -, -, -, -, hlog, -⟩ := stepPacker_effect _ t hpack
    exact .inl hlog

end Sys2Proof.Machine
end

section
/-! No command reads the responses already given or the transient state of a build (10_state.md R27, R37). -/

namespace Sys2Proof.Machine

/-- `s` with other responses given before and other contents of the packer. -/
def State.withUnread (s : State) (earlier : List Response) (p : Packer) : State :=
  { s with responses := earlier, packer := p }

section
variable (s : State) (earlier : List Response) (p : Packer)

@[simp] theorem State.withUnread_configured : (s.withUnread earlier p).configured = s.configured := rfl
@[simp] theorem State.withUnread_rows : (s.withUnread earlier p).rows = s.rows := rfl
@[simp] theorem State.withUnread_bm : (s.withUnread earlier p).bm = s.bm := rfl
@[simp] theorem State.withUnread_tstate : (s.withUnread earlier p).tstate = s.tstate := rfl
@[simp] theorem State.withUnread_pending : (s.withUnread earlier p).pending = s.pending := rfl
@[simp] theorem State.withUnread_frame : (s.withUnread earlier p).frame = s.frame := rfl
@[simp] theorem State.withUnread_inBounds (column row : Word32) :
    (s.withUnread earlier p).inBounds column row = s.inBounds column row := rfl

@[simp] theorem State.withUnread_respond (st : Status) (payload : List Byte) :
    (s.withUnread earlier p).respond st payload = (s.respond st payload).withUnread (earlier ++ [⟨st, payload⟩]) p := rfl
@[simp] theorem State.withUnread_paint (v : BitVec 1) :
    (s.withUnread earlier p).paint v = (s.paint v).withUnread earlier p := rfl
@[simp] theorem State.withUnread_writeBm (m : Memory) :
    (s.withUnread earlier p).writeBm m = (s.writeBm m).withUnread earlier p := rfl
@[simp] theorem State.withUnread_writePending (f : Option (List Byte)) :
    (s.withUnread earlier p).writePending f = (s.writePending f).withUnread earlier p := rfl

end

/-- `run` answers one response, keeps the packer, and does the same whatever the unread state holds. -/
def IgnoresUnread (run : State → Result) : Prop :=
  ∀ (s : State) (earlier : List Response) (p : Packer), ∃ t r,
    run s = .next t ∧ t.responses = s.responses ++ [r] ∧ t.packer = s.packer
      ∧ run (s.withUnread earlier p) = .next (t.withUnread (earlier ++ [r]) p)

theorem execConfig_ignoresUnread (address : Byte) (columns rowsReq : Word32) :
    IgnoresUnread (execConfig address columns rowsReq) := by
  intro s earlier p
  unfold execConfig
  split_ifs
  · exact ⟨_, _, rfl, rfl, rfl, rfl⟩
  · exact ⟨_, _, rfl, rfl, rfl, rfl⟩
  · exact ⟨_, _, rfl, rfl, rfl, rfl⟩

theorem execClear_ignoresUnread : IgnoresUnread execClear := by
  intro s earlier p
  rcases execClear_cases s with ⟨hc, h⟩ | ⟨hc, h⟩
  all_goals exact ⟨_, _, h, rfl, rfl, by simp [execClear, hc]⟩

theorem execFill_ignoresUnread : IgnoresUnread execFill := by
  intro s earlier p
  rcases execFill_cases s with ⟨hc, h⟩ | ⟨hc, h⟩
  all_goals exact ⟨_, _, h, rfl, rfl, by simp [execFill, hc]⟩

theorem execSetdot_ignoresUnread (column row : Word32) (lit : BitVec 1) :
    IgnoresUnread (execSetdot column row lit) := by
  intro s earlier p
  rcases execSetdot_cases column row lit s with ⟨hc, h⟩ | ⟨hc, hb, h⟩ | ⟨hc, hb, h⟩
  · exact ⟨_, _, h, rfl, rfl, by simp [execSetdot, hc]⟩
  · exact ⟨_, _, h, rfl, rfl, by simp [execSetdot, hc, hb]⟩
  · exact ⟨_, _, h, rfl, rfl, by simp [execSetdot, hc, hb]⟩

theorem execBuild_ignoresUnread : IgnoresUnread execBuild := by
  intro s earlier p
  rcases execBuild_cases s with ⟨hc, h⟩ | ⟨hc, hf, h⟩ | ⟨hc, f, hf, h⟩
  · exact ⟨_, _, h, rfl, rfl, by simp [execBuild, hc]⟩
  · exact ⟨_, _, h, rfl, rfl, by simp [execBuild, hc, hf]⟩
  · exact ⟨_, _, h, rfl, rfl, by simp [execBuild, hc, hf]⟩

theorem execSend_ignoresUnread : IgnoresUnread execSend := by
  intro s earlier p
  rcases execSend_cases s with
    ⟨hc, h⟩ | ⟨hc, ht, h⟩ | ⟨hc, ht, hp, h⟩ | ⟨hc, ht, hp, hf, h⟩ | ⟨hc, ht, hp, f, hf, h⟩
  · exact ⟨_, _, h, rfl, rfl, by simp [execSend, hc]⟩
  · exact ⟨_, _, h, rfl, rfl, by simp [execSend, hc, ht]⟩
  · exact ⟨_, _, h, rfl, rfl, by simp [execSend, hc, ht, State.hasPending, Option.isSome_iff_ne_none, hp]⟩
  · exact ⟨_, _, h, rfl, rfl, by simp [execSend, hc, ht, State.hasPending, hp, hf]⟩
  · exact ⟨_, _, h, rfl, rfl, by simp [execSend, hc, ht, State.hasPending, hp, hf]⟩

theorem execEncode_ignoresUnread (value : Word32) : IgnoresUnread (execEncode value) := by
  intro s earlier p
  unfold execEncode
  cases enc value.toNat with
  | none => exact ⟨_, _, rfl, rfl, rfl, rfl⟩
  | some chars => exact ⟨_, _, rfl, rfl, rfl, rfl⟩

/-- The seven commands together (10_state.md R27, R37). -/
theorem exec_ignoresUnread (i : Instr) : IgnoresUnread (exec i) := by
  cases i with
  | config address columns rows => exact execConfig_ignoresUnread address columns rows
  | clear => exact execClear_ignoresUnread
  | fill => exact execFill_ignoresUnread
  | setdot column row lit => exact execSetdot_ignoresUnread column row lit
  | build => exact execBuild_ignoresUnread
  | send => exact execSend_ignoresUnread
  | encode value => exact execEncode_ignoresUnread value

/-- Settles O41: the packer stays the state's own and only the earlier responses are replaced. -/
theorem outcomeIgnoresEarlierResponses : Obligations.OutcomeIgnoresEarlierResponses := by
  intro i s earlier
  obtain ⟨t, r, he, hresp, hpacker, hother⟩ := exec_ignoresUnread i s earlier s.packer
  rw [← hpacker] at hother
  exact ⟨t, r, he, hresp, hpacker ▸ hother⟩

/-- Settles O42: the responses stay the state's own and only the packer is replaced. -/
theorem commandsNeitherReadNorWriteTheTransientRegisters :
    Obligations.CommandsNeitherReadNorWriteTheTransientRegisters := by
  intro i s p
  obtain ⟨t, r, he, hresp, hpacker, hother⟩ := exec_ignoresUnread i s s.responses p
  rw [← hresp] at hother
  exact ⟨t, he, hpacker, hother⟩

end Sys2Proof.Machine
end

section
/-! The bitmap seen through `MemWrite`, `MemRead` and the packed bytes (20_memory.md R51 to R56). -/

namespace Sys2Proof.Machine

/-! ## Reading after MemWrite -/

/-- `MemWrite` decides the cells it covers and no other (20_memory.md R56). -/
theorem Memory.read_memWrite (m : Memory) (addr n v i : Nat) (h : m.wf = true) :
    (m.memWrite addr n v).read i
      = if addr ≤ i ∧ i < addr + n then BitVec.ofBool (v.testBit (i - addr)) else m.read i := by
  induction n with
  | zero => exact (if_neg (by omega)).symm
  | succ n ih =>
    rw [Memory.memWrite_succ, Memory.read_write _ _ _ _ (Memory.memWrite_wf m addr n v h), ih]
    by_cases hlast : i = addr + n
    · rw [if_pos hlast, if_pos (by omega), hlast, Nat.add_sub_cancel_left]
    · have hcovered : (addr ≤ i ∧ i < addr + (n + 1)) ↔ (addr ≤ i ∧ i < addr + n) := by omega
      simp only [if_neg hlast, hcovered]

/-- Storing the same value in the same cells again changes nothing (20_memory.md R63). -/
theorem Memory.memWrite_again (m : Memory) (addr n v : Nat) (h : m.wf = true) :
    (m.memWrite addr n v).memWrite addr n v = m.memWrite addr n v := by
  have hwf := Memory.memWrite_wf m addr n v h
  refine Memory.ext_of_read _ _ (Memory.memWrite_wf _ _ _ _ hwf) hwf (fun i => ?_)
  rw [Memory.read_memWrite _ _ _ _ _ hwf, Memory.read_memWrite _ _ _ _ _ h]
  split <;> rfl

/-! ## The bits of MemRead -/

theorem bit_testBit_zero (v : BitVec 1) : v.toNat.testBit 0 = decide (v = 1) := by
  rcases bit_cases v with rfl | rfl
  · rfl
  · rfl

theorem ofBool_eq_one (b : Bool) : decide (BitVec.ofBool b = 1) = b := by
  cases b with
  | false => rfl
  | true => rfl

/-- Bit `j` of `MemRead(addr, n)` is cell `addr + j` (20_memory.md R55). -/
theorem Memory.testBit_memRead (m : Memory) (addr n j : Nat) (hj : j < n) :
    (m.memRead addr n).testBit j = decide (m.read (addr + j) = 1) := by
  induction n with
  | zero => exact absurd hj (Nat.not_lt_zero j)
  | succ n ih =>
    rw [Memory.memRead_succ, Nat.add_comm, Nat.mul_comm, Nat.testBit_two_pow_mul_add _ (Memory.memRead_lt m addr n)]
    by_cases hlow : j < n
    · rw [if_pos hlow, ih hlow]
    · have hlast : j = n := by omega
      rw [if_neg hlow, hlast, Nat.sub_self, bit_testBit_zero]

/-- Settles O29: both operations are read cell by cell, and a value below `2 ^ n` is its low `n` bits. -/
theorem memReadGivesBackWhatMemWriteStored : Obligations.MemReadGivesBackWhatMemWriteStored := by
  intro m addr n v hwf hv
  have hstored (j : Nat) (hj : j < n) : (m.memWrite addr n v).read (addr + j) = BitVec.ofBool (v.testBit j) := by
    rw [Memory.read_memWrite m addr n v _ hwf, if_pos (by omega), Nat.add_sub_cancel_left]
  refine ⟨hstored, fun i hi => ?_, Nat.eq_of_testBit_eq fun j => ?_⟩
  · rw [Memory.read_memWrite m addr n v i hwf, if_neg (by omega)]
  · by_cases hj : j < n
    · rw [Memory.testBit_memRead _ _ _ _ hj, hstored j hj, ofBool_eq_one]
    · have hpow : 2 ^ n ≤ 2 ^ j := Nat.pow_le_pow_right Nat.two_pos (by omega)
      rw [Nat.testBit_lt_two_pow ((Memory.memRead_lt _ _ _).trans_le hpow), Nat.testBit_lt_two_pow (hv.trans_le hpow)]

/-! ## The flat index and the packed bytes -/

/-- Settles O26: Euclidean division by ROWS, the row being the remainder. -/
theorem flatIndexIsColumnMajor : Obligations.FlatIndexIsColumnMajor := by
  intro rows column row
  refine ⟨rfl, fun hrow => ⟨?_, ?_⟩⟩
  · rw [flatIndex, Nat.mul_comm, Nat.mul_add_div (by omega), Nat.div_eq_of_lt hrow, Nat.add_zero]
  · rw [flatIndex, Nat.mul_comm, Nat.mul_add_mod, Nat.mod_eq_of_lt hrow]

/-- Settles O27: a packed byte is `MemRead` of the eight cells from `8k` on. -/
theorem packedByteIsLeastSignificantCellFirst : Obligations.PackedByteIsLeastSignificantCellFirst := by
  intro m k j hj
  rw [packedByte, BitVec.getLsbD_ofNat, Memory.testBit_memRead _ _ _ _ hj, decide_eq_true hj, Bool.true_and]

/-- With `ROWS = 8 * q`, cell `8k + j` is row `8 * (k mod q) + j` of column `k div q` (20_memory.md R54). -/
theorem flatIndex_of_packed {rows column row : Word32} {q k j : Nat} (hrows : rows.toNat = 8 * q)
    (hcol : column.toNat = k / q) (hrow : row.toNat = 8 * (k % q) + j) :
    flatIndex rows column row = 8 * k + j := by
  calc flatIndex rows column row
      = k / q * (8 * q) + (8 * (k % q) + j) := by rw [flatIndex, hrows, hcol, hrow]
    _ = 8 * (q * (k / q) + k % q) + j := by ring
    _ = 8 * k + j := by rw [Nat.div_add_mod]

/-- Settles O28: a column holds `ROWS div 8` whole bytes, so `8k + j` is the flat index of the cell named. -/
theorem packedByteLiesInOneColumn : Obligations.PackedByteLiesInOneColumn := by
  intro m columns rows k j haligned hk hj
  obtain ⟨q, hrows⟩ : ∃ q, rows.toNat = 8 * q := Nat.dvd_of_mod_eq_zero haligned
  have hbytes : rows.toNat / 8 = q := by omega
  have hcells : k < q * columns.toNat := by rwa [hrows, Nat.mul_assoc, Nat.mul_div_cancel_left _ (by omega)] at hk
  have hq : 0 < q := Nat.pos_of_mul_pos_right (Nat.zero_lt_of_lt hcells)
  have hcolumn : k / q < columns.toNat := Nat.div_lt_of_lt_mul hcells
  have hrow : 8 * (k % q) + j < rows.toNat := by
    have hmod := Nat.mod_lt k hq
    omega
  have hcol32 := BitVec.toNat_ofNatLT (k / q) (hcolumn.trans columns.isLt)
  have hrow32 := BitVec.toNat_ofNatLT (8 * (k % q) + j) (hrow.trans rows.isLt)
  rw [hbytes]
  refine ⟨_, _, hcol32, hrow32, hcolumn, hrow, ?_⟩
  rw [flatIndex_of_packed hrows hcol32 hrow32]
  exact packedByteIsLeastSignificantCellFirst m k j hj

end Sys2Proof.Machine
end

section
/-! A drawing command leaves a state that the same command leaves as it is (20_memory.md R63). -/

namespace Sys2Proof.Machine

/-- The command `i` leaves `s` as it is, but for its response. -/
def LeavesAsIs (i : Instr) (s : State) : Prop :=
  ∃ r, exec i s = .next { s with responses := s.responses ++ [r] }

theorem LeavesAsIs.of_exec {i : Instr} {s : State} {st : Status} {payload : List Byte}
    (h : exec i s = .next (s.respond st payload)) : LeavesAsIs i s := ⟨⟨st, payload⟩, h⟩

/-- No command reads the responses (10_state.md R27), so one more of them is no matter. -/
theorem LeavesAsIs.respond {i : Instr} {s : State} (h : LeavesAsIs i s) (st : Status) (payload : List Byte) :
    LeavesAsIs i (s.respond st payload) := by
  obtain ⟨r, hr⟩ := h
  obtain ⟨t, r', ht, -, hother⟩ := outcomeIgnoresEarlierResponses i s (s.respond st payload).responses
  cases hr.symm.trans ht
  exact ⟨r', hother⟩

/-- A command that fails leaves the state it failed in. -/
theorem LeavesAsIs.of_raise {i : Instr} {s : State} {st : Status} (h : exec i s = .next (s.raise st)) :
    LeavesAsIs i (s.raise st) :=
  (LeavesAsIs.of_exec h).respond st []

/-- `CLEAR` and `FILL`: a painted bitmap painted again is the same bitmap (41_bitmap_store.md R119, R121). -/
theorem LeavesAsIs.of_paint {i : Instr} {v : BitVec 1} {s t : State}
    (hcases : ∀ s : State, (s.configured = false ∧ exec i s = .next (s.raise .notConfigured))
      ∨ (s.configured = true ∧ exec i s = .next (s.paint v).done))
    (h : exec i s = .next t) : LeavesAsIs i t := by
  rcases hcases s with ⟨-, he⟩ | ⟨hc, he⟩
  · cases h.symm.trans he
    exact LeavesAsIs.of_raise he
  · cases h.symm.trans he
    rcases hcases (s.paint v) with ⟨hc', -⟩ | ⟨-, hagain⟩
    · exact absurd (hc.symm.trans hc') (by decide)
    · exact (LeavesAsIs.of_exec hagain).respond _ _

/-- `SETDOT`: a cell written is the same cell written again (41_bitmap_store.md R123). -/
theorem LeavesAsIs.setdot_written {s : State} {column row : Word32} (lit : BitVec 1) (hwf : s.bm.wf = true)
    (hc : s.configured = true) (hb : s.inBounds column row = true) :
    LeavesAsIs (.setdot column row lit)
      (s.writeBm (s.bm.memWrite (flatIndex s.rows column row) 1 lit.toNat)) := by
  rcases execSetdot_cases column row lit (s.writeBm (s.bm.memWrite (flatIndex s.rows column row) 1 lit.toNat)) with
    ⟨hc', -⟩ | ⟨-, hb', -⟩ | ⟨-, -, h⟩
  · exact absurd (hc.symm.trans hc') (by decide)
  · exact absurd (hb.symm.trans hb') (by decide)
  · rw [State.writeBm_bm, State.writeBm_rows, Memory.memWrite_again _ _ _ _ hwf] at h
    exact LeavesAsIs.of_exec h

theorem LeavesAsIs.of_setdot {s t : State} {column row : Word32} {lit : BitVec 1} (hwf : s.bm.wf = true)
    (h : exec (.setdot column row lit) s = .next t) : LeavesAsIs (.setdot column row lit) t := by
  rcases execSetdot_cases column row lit s with ⟨-, he⟩ | ⟨-, -, he⟩ | ⟨hc, hb, he⟩
  · cases h.symm.trans he
    exact LeavesAsIs.of_raise he
  · cases h.symm.trans he
    exact LeavesAsIs.of_raise he
  · cases h.symm.trans he
    exact (LeavesAsIs.setdot_written lit hwf hc hb).respond _ _

/-- Settles O23: only `SETDOT` needs the canonical form, by which writing a cell twice lists the same cells. -/
theorem drawingCommandsAreIdempotent : Obligations.DrawingCommandsAreIdempotent := by
  intro i s t hwf hi h
  rcases hi with rfl | rfl | ⟨column, row, lit, rfl⟩
  · exact LeavesAsIs.of_paint execClear_cases h
  · exact LeavesAsIs.of_paint execFill_cases h
  · exact LeavesAsIs.of_setdot hwf h

end Sys2Proof.Machine
end

section
/-! A word of the port and its command determine each other: the decoder inverts the encoder, and the rows of the match and
mask table are the decoder's cases (30_encoding.md R80 to R84). -/

namespace Sys2Proof

/-! ## The two directions of the round trip -/

theorem decode_encode (i : Instr) : decode (encode i) = .ok i := by
  cases i with
  | config address columns rows =>
    simp [encode, decode, opField_packWord, imm8Field_packWord, aField_packWord, bField_packWord]
  | setdot column row lit =>
    obtain ⟨hlit, hunused⟩ := lit_of_setWidth lit
    simp [encode, decode, opField_packWord, imm8Field_packWord, aField_packWord, bField_packWord, setdotUnused, litField,
      ifZero_eq_ok, hlit, hunused]
  | encode value =>
    simp [encode, decode, opField_packWord, imm8Field_packWord, aField_packWord, bField_packWord, ifZero_eq_ok]
  | clear | fill | build | send => decide

/-- A word is rebuilt from the fields the decoder read, the unused ones being zero. -/
theorem encode_of_decode {w : CommandWord} {i : Instr} (h : decode w = .ok i) : encode i = w := by
  have hw := packWord_fields w
  rcases decode_cases w i h with
    ⟨hop, rfl⟩ | ⟨hop, himm, ha, hb, rfl⟩ | ⟨hop, himm, ha, hb, rfl⟩ | ⟨hop, hunused, rfl⟩ | ⟨hop, himm, ha, hb, rfl⟩
      | ⟨hop, himm, ha, hb, rfl⟩ | ⟨hop, himm, hb, rfl⟩
  · rwa [hop] at hw
  · rwa [hop, himm, ha, hb] at hw
  · rwa [hop, himm, ha, hb] at hw
  · rwa [hop, ← imm8_of_lit (imm8Field w) hunused] at hw
  · rwa [hop, himm, ha, hb] at hw
  · rwa [hop, himm, ha, hb] at hw
  · rwa [hop, himm, hb] at hw

theorem decode_eq_ok_iff {w : CommandWord} {i : Instr} : decode w = .ok i ↔ encode i = w :=
  ⟨encode_of_decode, fun h => h ▸ decode_encode i⟩

/-- Settles O2, command by command: each field of the packed word is read back. -/
theorem decodeOfEncodeIsTheCommand : Obligations.DecodeOfEncodeIsTheCommand := decode_encode

/-- Settles O3: an accepted word is its four fields, and the fields the command does not use are zero. -/
theorem encodeOfDecodeIsTheWord : Obligations.EncodeOfDecodeIsTheWord := fun _ _ => encode_of_decode

/-- Settles O1: each word written out is the encoding of its command. -/
theorem specWordsDecode : Obligations.SpecWordsDecode := by
  refine ⟨?_, ?_, ?_, ?_, ?_, ?_, ?_⟩ <;> exact decode_eq_ok_iff.2 rfl

/-! ## The rows of the match and mask table -/

theorem Instr.row_mem_commandRows (i : Instr) : i.row ∈ commandRows := by
  cases i with
  | config _ _ _ | clear | fill | setdot _ _ _ | build | send | encode _ => simp [Instr.row, commandRows]

/-- The word of every command is selected by its command's row: the seven cases of the family together. -/
theorem selectedByItsRow (i : Instr) : Laws.SelectedByItsRow.Statement i := by
  cases i with
  | config address columns rows => exact Laws.SelectedByItsRow.config address columns rows
  | clear => exact Laws.SelectedByItsRow.clear
  | fill => exact Laws.SelectedByItsRow.fill
  | setdot column row lit => exact Laws.SelectedByItsRow.setdot column row lit
  | build => exact Laws.SelectedByItsRow.build
  | send => exact Laws.SelectedByItsRow.send
  | encode value => exact Laws.SelectedByItsRow.encode value

theorem match_of_decode {w : CommandWord} {i : Instr} (h : decode w = .ok i) : w &&& i.row.maskBits = i.row.matchBits := by
  rw [← encode_of_decode h]
  exact beq_iff_eq.1 (selectedByItsRow i)

/-- Masking and matching a word is masking and matching its fields. -/
theorem and_packWord_eq_iff (w : CommandWord) (mop mimm8 op imm8 : Byte) (ma mb a b : Word32) :
    w &&& packWord mop mimm8 ma mb = packWord op imm8 a b ↔
      opField w &&& mop = op ∧ imm8Field w &&& mimm8 = imm8 ∧ aField w &&& ma = a ∧ bField w &&& mb = b := by
  rw [← packWord_fields w, and_getLsbD_packWord, opField_packWord, imm8Field_packWord, aField_packWord, bField_packWord]
  constructor
  · intro h
    refine ⟨?_, ?_, ?_, ?_⟩
    · simpa only [opField_packWord] using congrArg opField h
    · simpa only [imm8Field_packWord] using congrArg imm8Field h
    · simpa only [aField_packWord] using congrArg aField h
    · simpa only [bField_packWord] using congrArg bField h
  · rintro ⟨rfl, rfl, rfl, rfl⟩
    rfl

/-- Under the mask of `SETDOT` the bits of `imm8` that remain are those it does not use (R80, R82). -/
theorem setdotUnused_eq_zero_of_and (v : Byte) (h : v &&& 0xFE = 0) : v.extractLsb' 1 7 = 0 := by
  have : ∀ v : Byte, v &&& 0xFE = 0 → v.extractLsb' 1 7 = 0 := by decide
  exact this v h

/-- A row that masks the whole word selects the word of its one command only. -/
theorem decode_of_match_allOnes {w : CommandWord} {i : Instr} (hmask : i.row.maskBits = BitVec.allOnes 80)
    (hmatch : i.row.matchBits = encode i) (h : w &&& i.row.maskBits = i.row.matchBits) : decode w = .ok i := by
  rw [hmask, BitVec.and_allOnes, hmatch] at h
  exact decode_eq_ok_iff.2 h.symm

theorem decode_of_match_config {w : CommandWord} (h : w &&& rowConfig.maskBits = rowConfig.matchBits) :
    decode w = .ok (.config (imm8Field w) (aField w) (bField w)) := by
  obtain ⟨hop, -, -, -⟩ := (and_packWord_eq_iff w 0xFF 0 0x01 0 0 0 0 0).1 h
  have hop : opField w = 0x01 := (BitVec.and_allOnes (x := opField w)).symm.trans hop
  simp [decode, hop]

theorem decode_of_match_setdot {w : CommandWord} (h : w &&& rowSetdot.maskBits = rowSetdot.matchBits) :
    decode w = .ok (.setdot (aField w) (bField w) (litField w)) := by
  obtain ⟨hop, himm, -, -⟩ := (and_packWord_eq_iff w 0xFF 0xFE 0x04 0 0 0 0 0).1 h
  have hop : opField w = 0x04 := (BitVec.and_allOnes (x := opField w)).symm.trans hop
  have hunused : setdotUnused w = 0 := setdotUnused_eq_zero_of_and (imm8Field w) himm
  simp [decode, hop, hunused, ifZero_eq_ok]

theorem decode_of_match_encode {w : CommandWord} (h : w &&& rowEncode.maskBits = rowEncode.matchBits) :
    decode w = .ok (.encode (aField w)) := by
  obtain ⟨hop, himm, -, hb⟩ := (and_packWord_eq_iff w 0xFF 0xFF 0x07 0 0 0xFFFFFFFF 0 0).1 h
  have hop : opField w = 0x07 := (BitVec.and_allOnes (x := opField w)).symm.trans hop
  have himm : imm8Field w = 0 := (BitVec.and_allOnes (x := imm8Field w)).symm.trans himm
  have hb : bField w = 0 := (BitVec.and_allOnes (x := bField w)).symm.trans hb
  simp [decode, hop, himm, hb, ifZero_eq_ok]

/-- R82: a word a row selects decodes to a command of that row. -/
theorem decode_of_match {w : CommandWord} {row : CommandRow} (hrow : row ∈ commandRows)
    (h : w &&& row.maskBits = row.matchBits) : ∃ i, decode w = .ok i ∧ i.row = row := by
  simp only [commandRows, List.mem_cons, List.not_mem_nil, or_false] at hrow
  rcases hrow with rfl | rfl | rfl | rfl | rfl | rfl | rfl
  · exact ⟨_, decode_of_match_config h, rfl⟩
  · exact ⟨.clear, decode_of_match_allOnes rfl rfl h, rfl⟩
  · exact ⟨.fill, decode_of_match_allOnes rfl rfl h, rfl⟩
  · exact ⟨_, decode_of_match_setdot h, rfl⟩
  · exact ⟨.build, decode_of_match_allOnes rfl rfl h, rfl⟩
  · exact ⟨.send, decode_of_match_allOnes rfl rfl h, rfl⟩
  · exact ⟨_, decode_of_match_encode h, rfl⟩

/-- Settles O4: two rows that select one word are both the row of the command it decodes to. -/
theorem decodeSelectsByMaskAndMatch : Obligations.DecodeSelectsByMaskAndMatch := by
  refine ⟨fun w row hrow => ⟨decode_of_match hrow, ?_⟩, fun w r₁ r₂ h₁ h₂ hw₁ hw₂ => ?_⟩
  · rintro ⟨i, hd, rfl⟩
    exact match_of_decode hd
  · obtain ⟨i, hi, rfl⟩ := decode_of_match h₁ hw₁
    obtain ⟨j, hj, rfl⟩ := decode_of_match h₂ hw₂
    cases hi.symm.trans hj
    rfl

/-- R83: a word no row selects is rejected. -/
theorem decode_ne_ok_of_unmatched {w : CommandWord} (h : ∀ row ∈ commandRows, w &&& row.maskBits ≠ row.matchBits)
    (i : Instr) : decode w ≠ .ok i :=
  fun hd => h i.row i.row_mem_commandRows (match_of_decode hd)

namespace Machine

/-- Settles O6: at either level a word that does not decode is answered by `raise`. -/
theorem unmatchedWordGetsIllegalCommand : Obligations.UnmatchedWordGetsIllegalCommand := by
  intro s w rest hidle hin hunmatched
  have hreject := decode_ne_ok_of_unmatched hunmatched
  rcases hin with hin | hin
  · rw [step_command s w rest hidle hin]
    rcases stepCommand_cases w (s.writeInputs rest) with ⟨i, hd, -⟩ | ⟨-, -, he⟩
    · exact absurd hd (hreject i)
    · exact he
  · rw [step_serialCommand s w rest hidle hin]
    rcases stepSerialCommand_cases w (s.writeInputs rest) with ⟨i, hd, -⟩ | ⟨-, -, he⟩
    · exact absurd hd (hreject i)
    · exact he

end Machine

end Sys2Proof
end

section
/-! The frame byte by byte: its length, and what stands at each index (30_encoding.md R75, R76). -/

namespace Sys2Proof.Machine

/-! ## The characters of a body -/

theorem isHexCode_of_mem_encChars {v : Nat} (hv : v ≤ 255) {b : Byte} (hb : b ∈ Spec.encChars v) :
    Spec.isHexCode b = true := by
  rw [← ahe_pair v hv, List.mem_cons, List.mem_singleton] at hb
  obtain ⟨hhigh, hlow⟩ := ahe_isHexCode (BitVec.ofNat 8 v)
  rcases hb with rfl | rfl
  · exact hhigh
  · exact hlow

theorem isHexCode_of_mem_bodyBytes {bm : Memory} {n : Nat} {b : Byte} (hb : b ∈ bodyBytes bm n) :
    Spec.isHexCode b = true := by
  rw [bodyBytes_eq, List.mem_flatMap] at hb
  obtain ⟨k, -, hk⟩ := hb
  exact isHexCode_of_mem_encChars (Nat.le_of_lt_succ (spec_packed_lt bm k)) hk

/-- The length field spells the value it was made from (40_ascii_hex_byte_encoder.md R105). -/
theorem unhex_hexCode {d : Nat} (hd : d < 16) : Spec.unhex (Spec.hexCode d) = d := by
  have : ∀ d < 16, Spec.unhex (Spec.hexCode d) = d := by decide
  exact this d hd

theorem checkOfSum_le (sum : Nat) : Spec.checkOfSum sum ≤ 255 := Nat.le_of_lt_succ (Nat.mod_lt _ (by decide))

/-! ## The layout of a frame -/

section
variable {address : Byte} {columns rows : Word32} {bm : Memory} {f : List Byte}

/-- The frame written out: `STX`, `FTYPE`, the address byte, the length field, the body, `ETX` and the check characters. -/
theorem frame_layout (h : frame address columns rows bm = some f) :
    packedCount columns rows ≤ 255 ∧ address.toNat + 0x30 ≤ 255 ∧ ∃ check ≤ 255,
      f = ([0x02, 0x31, BitVec.ofNat 8 (address.toNat + 0x30)] ++ Spec.encChars (packedCount columns rows))
        ++ (bodyBytes bm (packedCount columns rows) ++ 0x03 :: Spec.encChars check) := by
  obtain ⟨header, hheader, rfl⟩ := (frame_eq_some address columns rows bm f).1 h
  obtain ⟨hcount, haddress, rfl⟩ := (headerBytes_eq_some address _ header).1 hheader
  exact ⟨hcount, haddress, _, checkOfSum_le _, by rw [footerBytes_eq, List.append_assoc]⟩

theorem frame_length (h : frame address columns rows bm = some f) :
    f.length = 8 + 2 * packedCount columns rows := by
  obtain ⟨-, -, check, -, rfl⟩ := frame_layout h
  simp only [List.length_append, bodyBytes_length, Spec.encChars, List.length_cons, List.length_nil]
  omega

/-- After the header stand the body, `ETX` and the check characters. -/
theorem frame_getElem?_five_add (h : frame address columns rows bm = some f) :
    ∃ check ≤ 255, ∀ j, f[5 + j]? = (bodyBytes bm (packedCount columns rows) ++ 0x03 :: Spec.encChars check)[j]? := by
  obtain ⟨-, -, check, hcheck, rfl⟩ := frame_layout h
  exact ⟨check, hcheck, fun j => by rw [List.getElem?_append_right (by simp [Spec.encChars])]; simp [Spec.encChars]⟩

theorem frame_getElem?_etx (h : frame address columns rows bm = some f) :
    f[5 + 2 * packedCount columns rows]? = some 0x03 := by
  obtain ⟨check, -, htail⟩ := frame_getElem?_five_add h
  rw [htail, List.getElem?_append_right (by rw [bodyBytes_length]), bodyBytes_length, Nat.sub_self]
  rfl

/-- The two characters of the length field. -/
theorem frame_getElem?_lengthField (h : frame address columns rows bm = some f) :
    f[3]? = some (Spec.hexCode (packedCount columns rows / 16))
      ∧ f[4]? = some (Spec.hexCode (packedCount columns rows % 16)) := by
  obtain ⟨-, -, check, -, rfl⟩ := frame_layout h
  exact ⟨rfl, rfl⟩

/-- Behind the header every byte but `ETX` is a hexadecimal character. -/
theorem frame_tail_isHexCode (h : frame address columns rows bm = some f) {j : Nat} {b : Byte} (hb : f[5 + j]? = some b)
    (hj : j ≠ 2 * packedCount columns rows) : Spec.isHexCode b = true := by
  obtain ⟨check, hcheck, htail⟩ := frame_getElem?_five_add h
  rw [htail] at hb
  by_cases hbody : j < (bodyBytes bm (packedCount columns rows)).length
  · rw [List.getElem?_append_left hbody] at hb
    exact isHexCode_of_mem_bodyBytes (List.mem_of_getElem? hb)
  · rw [List.getElem?_append_right (Nat.not_lt.1 hbody), bodyBytes_length] at hb
    rw [bodyBytes_length] at hbody
    obtain ⟨d, hd⟩ : ∃ d, j - 2 * packedCount columns rows = d + 1 := ⟨j - 2 * packedCount columns rows - 1, by omega⟩
    rw [hd, List.getElem?_cons_succ] at hb
    exact isHexCode_of_mem_encChars hcheck (List.mem_of_getElem? hb)

/-- What stands at each index of a frame: a marker, the address byte, or a hexadecimal character (R76). -/
theorem frame_byte_cases (h : frame address columns rows bm = some f) {i : Nat} {b : Byte} (hb : f[i]? = some b) :
    (i = 0 ∧ b = 0x02) ∨ (i = 1 ∧ b = 0x31) ∨ (i = 2 ∧ b.toNat = address.toNat + 0x30)
      ∨ (i = 5 + 2 * packedCount columns rows ∧ b = 0x03)
      ∨ (3 ≤ i ∧ i ≠ 5 + 2 * packedCount columns rows ∧ Spec.isHexCode b = true) := by
  obtain ⟨hcount, haddress, check, -, hf⟩ := frame_layout h
  obtain ⟨hhigh, hlow⟩ := frame_getElem?_lengthField h
  match i with
  | 0 =>
    subst hf
    exact .inl ⟨rfl, (Option.some.inj hb).symm⟩
  | 1 =>
    subst hf
    exact .inr (.inl ⟨rfl, (Option.some.inj hb).symm⟩)
  | 2 =>
    subst hf
    cases hb
    exact .inr (.inr (.inl ⟨rfl, by rw [BitVec.toNat_ofNat]; omega⟩))
  | 3 =>
    cases hhigh.symm.trans hb
    exact .inr (.inr (.inr (.inr ⟨by omega, by omega, isHexCode_of_mem_encChars hcount (.head _)⟩)))
  | 4 =>
    cases hlow.symm.trans hb
    exact .inr (.inr (.inr (.inr ⟨by omega, by omega, isHexCode_of_mem_encChars hcount (.tail _ (.head _))⟩)))
  | j + 5 =>
    rw [Nat.add_comm] at hb ⊢
    by_cases hj : j = 2 * packedCount columns rows
    · rw [hj, frame_getElem?_etx h] at hb
      exact .inr (.inr (.inr (.inl ⟨by rw [hj], (Option.some.inj hb).symm⟩)))
    · exact .inr (.inr (.inr (.inr ⟨by omega, by omega, frame_tail_isHexCode h hb hj⟩)))

end

/-- Settles O32: header, body and footer are 5, `2N` and 3 bytes, and the length field is the two characters of `N`. -/
theorem frameLengthAgreesWithItsLengthField : Obligations.FrameLengthAgreesWithItsLengthField := by
  intro address columns rows m f h
  obtain ⟨hcount, -⟩ := frame_layout h
  obtain ⟨hhigh, hlow⟩ := frame_getElem?_lengthField h
  have hlen := frame_length h
  have hspells : 16 * Spec.unhex (Spec.hexCode (packedCount columns rows / 16))
      + Spec.unhex (Spec.hexCode (packedCount columns rows % 16)) = packedCount columns rows := by
    rw [unhex_hexCode (by omega), unhex_hexCode (by omega), Nat.div_add_mod]
  exact ⟨_, _, hhigh, hlow, hspells, hlen, by omega, by omega, frame_getElem?_etx h⟩

/-- A byte of at least 0x30 is neither marker. -/
theorem ne_markers_of_le {b : Byte} (h : 0x30 ≤ b.toNat) : b ≠ 0x02 ∧ b ≠ 0x03 := by
  constructor <;> (rintro rfl; exact absurd h (by decide))

/-- Settles O33: `FTYPE`, the address byte and the hexadecimal characters are at least 0x30, so none of them is a marker. -/
theorem frameAlphabetAndUniqueMarkers : Obligations.FrameAlphabetAndUniqueMarkers := by
  intro address columns rows m f i b h hb
  change _ ∧ (_ ↔ i = 5 + 2 * packedCount columns rows) ∧ _ ∧ _ ∧ (_ → _ → i ≠ 5 + 2 * packedCount columns rows → _)
  rcases frame_byte_cases h hb with ⟨rfl, rfl⟩ | ⟨rfl, rfl⟩ | ⟨rfl, hval⟩ | ⟨rfl, rfl⟩ | ⟨hi, hne, hhex⟩
  · exact ⟨iff_of_true rfl rfl, iff_of_false (by decide) (by omega), by omega, by omega, fun h0 => absurd rfl h0⟩
  · exact ⟨iff_of_false (by decide) (by omega), iff_of_false (by decide) (by omega), fun _ => rfl, by omega,
      fun _ _ _ => by decide⟩
  · obtain ⟨hstx, hetx⟩ := ne_markers_of_le (b := b) (by omega)
    exact ⟨iff_of_false hstx (by omega), iff_of_false hetx (by omega), by omega, fun _ => hval, fun _ h2 => absurd rfl h2⟩
  · exact ⟨iff_of_false (by decide) (by omega), iff_of_true rfl rfl, by omega, by omega, fun _ _ hn => absurd rfl hn⟩
  · obtain ⟨hstx, hetx⟩ := ne_markers_of_le (isHexCode_bounds b hhex).1
    exact ⟨iff_of_false hstx (by omega), iff_of_false hetx hne, by omega, by omega, fun _ _ _ => hhex⟩

end Sys2Proof.Machine
end

section
/-! The responses of the commands: their status codes and their payloads (30_encoding.md R86). -/

namespace Sys2Proof.Machine

/-- R86 of one response `r` to the command `i` in the state `s`: no payload, and then a failure if the command is one that
has a payload, or the payload of a successful `ENCODE` or `BUILD`. -/
def ResponseFits (i : Instr) (s : State) (r : Response) : Prop :=
  (r.payload = [] ∧ (i.row = rowEncode ∨ i.row = rowBuild → r.status ≠ .ok))
  ∨ (r.status = .ok ∧ (∃ value, i = .encode value ∧ r.payload = Spec.encChars value.toNat) ∧ r.payload.length = 2)
  ∨ (r.status = .ok ∧ i = .build ∧ s.frame = some r.payload
    ∧ r.payload.length = 8 + 2 * ((s.rows.toNat * s.columns.toNat) / 8))

theorem ResponseFits.failure {i : Instr} {s : State} {st : Status} (h : st ≠ .ok) : ResponseFits i s ⟨st, []⟩ :=
  .inl ⟨rfl, fun _ => h⟩

theorem ResponseFits.noPayload {i : Instr} {row : CommandRow} {s : State} {st : Status} (hi : i.row = row)
    (hrow : ¬ (row = rowEncode ∨ row = rowBuild)) : ResponseFits i s ⟨st, []⟩ :=
  .inl ⟨rfl, fun h => absurd (hi ▸ h) hrow⟩

theorem ResponseFits.encode {value : Word32} {s : State} (h : value.toNat ≤ 255) :
    ResponseFits (.encode value) s ⟨.ok, aheBytes (BitVec.ofNat 8 value.toNat)⟩ :=
  .inr (.inl ⟨rfl, ⟨value, rfl, ahe_pair value.toNat h⟩, rfl⟩)

theorem ResponseFits.build {s : State} {f : List Byte} (h : s.frame = some f) : ResponseFits .build s ⟨.ok, f⟩ :=
  .inr (.inr ⟨rfl, rfl, h, frame_length h⟩)

/-- The outcome `o` is a next state with one response more than `s`, and that response to `i` is as R86 has it. -/
def AnswersWithin (o : Result) (i : Instr) (s : State) : Prop :=
  ∃ (u : State) (st : Status) (payload : List Byte),
    o = .next (u.respond st payload) ∧ u.responses = s.responses ∧ ResponseFits i s ⟨st, payload⟩

theorem exec_answersWithin (i : Instr) (s : State) : AnswersWithin (exec i s) i s := by
  cases i with
  | config address columns rows =>
    have hfits (st : Status) : ResponseFits (.config address columns rows) s ⟨st, []⟩ :=
      .noPayload (row := rowConfig) rfl (by decide)
    rcases execConfig_cases address columns rows s with ⟨-, -, he⟩ | ⟨-, he⟩ <;>
    exact ⟨_, _, _, he, rfl, hfits _⟩
  | clear =>
    have hfits (st : Status) : ResponseFits .clear s ⟨st, []⟩ := .noPayload (row := rowClear) rfl (by decide)
    rcases execClear_cases s with ⟨-, he⟩ | ⟨-, he⟩ <;>
    exact ⟨_, _, _, he, rfl, hfits _⟩
  | fill =>
    have hfits (st : Status) : ResponseFits .fill s ⟨st, []⟩ := .noPayload (row := rowFill) rfl (by decide)
    rcases execFill_cases s with ⟨-, he⟩ | ⟨-, he⟩ <;>
    exact ⟨_, _, _, he, rfl, hfits _⟩
  | setdot column row lit =>
    have hfits (st : Status) : ResponseFits (.setdot column row lit) s ⟨st, []⟩ :=
      .noPayload (row := rowSetdot) rfl (by decide)
    rcases execSetdot_cases column row lit s with ⟨-, he⟩ | ⟨-, -, he⟩ | ⟨-, -, he⟩ <;>
    exact ⟨_, _, _, he, rfl, hfits _⟩
  | send =>
    have hfits (st : Status) : ResponseFits .send s ⟨st, []⟩ := .noPayload (row := rowSend) rfl (by decide)
    rcases execSend_cases s with
      ⟨-, he⟩ | ⟨-, -, he⟩ | ⟨-, -, -, he⟩ | ⟨-, -, -, -, he⟩ | ⟨-, -, -, f, -, he⟩ <;>
    exact ⟨_, _, _, he, rfl, hfits _⟩
  | build =>
    rcases execBuild_cases s with ⟨-, he⟩ | ⟨-, -, he⟩ | ⟨-, f, hf, he⟩
    · exact ⟨_, _, _, he, rfl, .failure nofun⟩
    · exact ⟨_, _, _, he, rfl, .failure nofun⟩
    · exact ⟨_, _, _, he, rfl, .build hf⟩
  | encode value =>
    rcases execEncode_cases value s with ⟨-, he⟩ | ⟨hle, he⟩
    · exact ⟨_, _, _, he, rfl, .failure nofun⟩
    · exact ⟨_, _, _, he, rfl, .encode hle⟩

/-- Settles O40: the last response of the next state is the command's, and the seven statuses have seven codes. -/
theorem responsesHaveTheirCodesAndPayloads : Obligations.ResponsesHaveTheirCodesAndPayloads := by
  refine ⟨⟨rfl, rfl, rfl, rfl, rfl, rfl, rfl, fun st => ?_⟩, fun i s t r he hr => ?_⟩
  · cases st <;> decide
  · obtain ⟨u, st, payload, he', hu, hfits⟩ := exec_answersWithin i s
    cases he.symm.trans he'
    rw [State.respond_responses, hu, List.append_cancel_left_eq, List.singleton_inj] at hr
    exact hr ▸ hfits

end Sys2Proof.Machine
end

section
/-! The byte encoder and the command `ENCODE`: the two characters, and the value they spell (40_ascii_hex_byte_encoder.md
R100 to R105). -/

namespace Sys2Proof.Machine

/-! ## The characters decode back -/

/-- The two nibbles the AHE spells put the byte together again. -/
theorem unhex_ahe (v : Byte) : 16 * Spec.unhex (ahe v).1 + Spec.unhex (ahe v).2 = v.toNat := by
  have hhigh : (v.extractLsb' 4 4).toNat = v.toNat / 16 := by
    rw [BitVec.extractLsb'_toNat, Nat.shiftRight_eq_div_pow]
    omega
  have hlow : (v.extractLsb' 0 4).toNat = v.toNat % 16 := BitVec.extractLsb'_toNat ..
  rw [ahe, hexchar_unhex, hexchar_unhex, hhigh, hlow, Nat.div_add_mod]

theorem unhex_of_enc_eq_some {v : Nat} {high low : Byte} (h : enc v = some (high, low)) :
    16 * Spec.unhex high + Spec.unhex low = v := by
  rcases Nat.lt_or_ge 255 v with hv | hv
  · rw [enc_of_gt v hv] at h
    cases h
  · rw [enc_of_le v hv, Option.some_inj] at h
    have hspells := unhex_ahe (BitVec.ofNat 8 v)
    rwa [h, BitVec.toNat_ofNat, Nat.mod_eq_of_lt (by omega)] at hspells

/-- A pair of characters has one value, so two values with the same pair are one. -/
theorem enc_inj_of_le {u v : Nat} (hu : u ≤ 255) (h : enc u = enc v) : u = v := by
  have henc := enc_of_le u hu
  rw [← unhex_of_enc_eq_some henc, unhex_of_enc_eq_some (h ▸ henc)]

/-! ## The obligations -/

/-- Settles O12: the characters are the AHE's, and decoding them gives the value, which makes `enc` injective. -/
theorem encodedByteDecodesBack : Obligations.EncodedByteDecodesBack := by
  refine ⟨fun v hv => ?_, fun u v hu _ h => enc_inj_of_le hu h⟩
  have henc := enc_of_le v hv
  obtain ⟨hhigh, hlow⟩ := ahe_isHexCode (BitVec.ofNat 8 v)
  exact ⟨_, _, henc, hhigh, hlow, unhex_of_enc_eq_some henc⟩

/-- Settles O11: `ENCODE` answers in one of two ways, and the value says in which. -/
theorem encodeAnswersItsTwoCharacters : Obligations.EncodeAnswersItsTwoCharacters := by
  intro value s
  rcases execEncode_cases value s with ⟨hgt, he⟩ | ⟨hle, he⟩
  · exact ⟨fun hle => absurd hle (Nat.not_le.2 hgt), fun _ => he⟩
  · refine ⟨fun _ => ?_, fun hgt => absurd hgt (Nat.not_lt.2 hle)⟩
    rw [← ahe_pair value.toNat hle]
    exact he

end Sys2Proof.Machine
end

section
/-! The bitmap store: `CONFIG` with its rounding and its two checks, painting, dots, and who changes a cell
(41_bitmap_store.md). -/

namespace Sys2Proof.Machine

/-! ## Rounding (R127) -/

theorem eight_dvd_round8 (r : Nat) : 8 ∣ round8 r := Nat.dvd_mul_right 8 _

theorem le_round8 (r : Nat) : r ≤ round8 r := by
  rw [round8_eq]
  omega

theorem round8_le_of_dvd {r m : Nat} (hm : 8 ∣ m) (hr : r ≤ m) : round8 r ≤ m := by
  obtain ⟨q, rfl⟩ := hm
  rw [round8_eq]
  omega

/-- Settles O13: a multiple of 8 is its own least multiple of 8. -/
theorem roundingGivesTheLeastMultipleOfEight : Obligations.RoundingGivesTheLeastMultipleOfEight := fun r =>
  ⟨round8_eq r, eight_dvd_round8 r, le_round8 r, fun _ hm hr => round8_le_of_dvd hm hr,
    fun hr => Nat.le_antisymm (round8_le_of_dvd hr le_rfl) (le_round8 r)⟩

/-- The rounded row count fits the register exactly for a request up to the largest 32-bit multiple of 8 (R117 (a)). -/
theorem round8_le_geomMax_iff (r : Nat) : round8 r ≤ 0xFFFFFFFF ↔ r ≤ 0xFFFFFFF8 := by
  rw [round8_eq]
  omega

theorem toNat_ofNat_round8 {r : Nat} (h : r ≤ 0xFFFFFFF8) : (BitVec.ofNat 32 (round8 r)).toNat = round8 r := by
  have hfits := (round8_le_geomMax_iff r).2 h
  rw [BitVec.toNat_ofNat, Nat.mod_eq_of_lt (by omega)]

/-! ## CONFIG (R116 to R118) -/

/-- `CONFIG` whose request passes both checks (R116). -/
theorem exec_config_of_fits (address : Byte) (columns rowsReq : Word32) (s : State)
    (hrows : rowsReq.toNat ≤ 0xFFFFFFF8) (hcells : columns.toNat * round8 rowsReq.toNat ≤ Config.CAP_CELLS) :
    exec (.config address columns rowsReq) s
      = .next (s.construct address columns (BitVec.ofNat 32 (round8 rowsReq.toNat))).done := by
  rcases execConfig_cases address columns rowsReq s with ⟨-, -, h⟩ | ⟨hbig | hbig, -⟩
  · exact h
  · exact absurd ((round8_le_geomMax_iff _).2 hrows) (Nat.not_le.2 hbig)
  · exact absurd hcells (Nat.not_le.2 hbig)

/-- Settles O14: the cells of the bitmap constructed are none of them listed, so all unlit. -/
theorem configConstructsTheInstance : Obligations.ConfigConstructsTheInstance := by
  intro address columns rowsReq s hrows hcells
  refine ⟨_, exec_config_of_fits address columns rowsReq s hrows hcells, rfl, toNat_ofNat_round8 hrows, fun i => ?_⟩
  rw [State.done_eq, State.respond_bm, State.construct_bm, Memory.replicate_zero, Memory.read_nil]

/-- Settles O15: a request that fails a check is not one that passes both, and `CONFIG` does nothing else. -/
theorem configRejectsWhatDoesNotFit : Obligations.ConfigRejectsWhatDoesNotFit := by
  refine ⟨capCells_ge, fun address columns rowsReq s hbig => ?_⟩
  rcases execConfig_cases address columns rowsReq s with ⟨hrows, hcells, -⟩ | ⟨-, h⟩
  · rcases hbig with hbig | hbig
    · exact absurd ((round8_le_geomMax_iff _).1 hrows) (Nat.not_le.2 hbig)
    · exact absurd hcells (Nat.not_le.2 hbig)
  · exact h

/-! ## CLEAR and FILL (R119 to R122) -/

theorem exec_clear_of_configured {s : State} (hc : s.configured = true) : exec .clear s = .next (s.paint 0).done := by
  rcases execClear_cases s with ⟨hc', -⟩ | ⟨-, h⟩
  · exact absurd (hc.symm.trans hc') (by decide)
  · exact h

theorem exec_fill_of_configured {s : State} (hc : s.configured = true) : exec .fill s = .next (s.paint 1).done := by
  rcases execFill_cases s with ⟨hc', -⟩ | ⟨-, h⟩
  · exact absurd (hc.symm.trans hc') (by decide)
  · exact h

/-- Every cell of the geometry reads what it was painted, those of the rows added by rounding included. -/
theorem State.read_paint (s : State) (v : BitVec 1) {i : Nat} (hi : i < s.columns.toNat * s.rows.toNat) :
    (s.paint v).bm.read i = v := by
  rw [State.paint_bm, Memory.read_replicate, cellCount, if_pos hi]

/-- An unlit bitmap lists no cell, whatever was drawn on it before. -/
theorem State.done_paint_zero_bm (s : State) : (s.paint 0).done.bm = [] := by
  rw [State.done_eq, State.respond_bm, State.paint_bm, Memory.replicate_zero]

/-- Settles O16: `CLEAR` paints 0 and responds. -/
theorem clearUnlightsEveryCell : Obligations.ClearUnlightsEveryCell := fun s hc =>
  ⟨_, exec_clear_of_configured hc, rfl, fun _ hi => s.read_paint 0 hi⟩

/-- Settles O17: `FILL` paints 1 and responds. -/
theorem fillLightsEveryCell : Obligations.FillLightsEveryCell := fun s hc =>
  ⟨_, exec_fill_of_configured hc, rfl, fun _ hi => s.read_paint 1 hi⟩

/-- Eight lit cells make the packed byte 0xFF (20_memory.md R53). -/
theorem packedByte_of_lit {m : Memory} {k : Nat} (h : ∀ j, j < 8 → m.read (8 * k + j) = 1) :
    packedByte m k = 0xFF := by
  change packedByte m k = BitVec.allOnes 8
  refine BitVec.eq_of_getLsbD_eq fun j hj => ?_
  rw [packedByteIsLeastSignificantCellFirst m k j hj, h j hj, BitVec.getLsbD_allOnes, decide_eq_true hj]
  rfl

/-- Packed bytes 0xFF spell a body of characters 'F' (R122). -/
theorem bodyBytes_of_packed_allOnes {m : Memory} (n : Nat) (h : ∀ k, k < n → packedByte m k = 0xFF) :
    bodyBytes m n = List.replicate (2 * n) 0x46 := by
  induction n with
  | zero => rfl
  | succ n ih =>
    have hF : aheBytes 0xFF = List.replicate 2 0x46 := by decide
    rw [bodyBytes_succ, ih fun k hk => h k (Nat.lt_succ_of_lt hk), h n (Nat.lt_succ_self n), hF,
      List.replicate_append_replicate, Nat.mul_succ]

/-- Settles O18: the eight cells of a packed byte below N lie inside the geometry, so `FILL` has lit them. -/
theorem filledPanelPacksToAllOnes : Obligations.FilledPanelPacksToAllOnes := by
  intro s hc
  have hpacked (k : Nat) (hk : k < (s.rows.toNat * s.columns.toNat) / 8) : packedByte (s.paint 1).bm k = 0xFF := by
    refine packedByte_of_lit fun j hj => s.read_paint 1 ?_
    rw [Nat.mul_comm s.columns.toNat]
    omega
  exact ⟨_, exec_fill_of_configured hc, hpacked, bodyBytes_of_packed_allOnes _ hpacked⟩

/-- Settles O19: a bitmap just constructed lists no cell either, and the frame reads the bitmap and the geometry only. -/
theorem clearFillClearGivesTheFreshFrame : Obligations.ClearFillClearGivesTheFreshFrame := by
  intro address columns rowsReq s hrows hcells
  refine ⟨_, _, _, _, exec_config_of_fits address columns rowsReq s hrows hcells, exec_clear_of_configured rfl,
    exec_fill_of_configured rfl, exec_clear_of_configured rfl, State.done_paint_zero_bm _,
    State.done_paint_zero_bm _, ?_⟩
  exact congrArg (frame address columns _) (State.done_paint_zero_bm _)

/-! ## SETDOT (R123 to R125) -/

theorem exec_setdot_of_inBounds {column row : Word32} (lit : BitVec 1) {s : State} (hc : s.configured = true)
    (hb : s.inBounds column row = true) :
    exec (.setdot column row lit) s = .next (s.writeBm (s.bm.write (flatIndex s.rows column row) lit)).done := by
  rcases execSetdot_cases column row lit s with ⟨hc', -⟩ | ⟨-, hb', -⟩ | ⟨-, -, h⟩
  · exact absurd (hc.symm.trans hc') (by decide)
  · exact absurd (hb.symm.trans hb') (by decide)
  · rwa [Memory.memWrite_one] at h

theorem exec_setdot_of_outOfBounds {column row : Word32} (lit : BitVec 1) {s : State} (hc : s.configured = true)
    (hb : s.columns.toNat ≤ column.toNat ∨ s.rows.toNat ≤ row.toNat) :
    exec (.setdot column row lit) s = .next (s.raise .indexOutOfRange) := by
  rcases execSetdot_cases column row lit s with ⟨hc', -⟩ | ⟨-, -, h⟩ | ⟨-, hb', -⟩
  · exact absurd (hc.symm.trans hc') (by decide)
  · exact h
  · obtain ⟨hcol, hrow⟩ := (inBounds_iff s column row).1 hb'
    omega

/-- Settles O20: on a canonical bitmap a write decides its own cell and no other. -/
theorem setdotWritesExactlyOneCell : Obligations.SetdotWritesExactlyOneCell := by
  intro column row lit s hc hwf hcol hrow
  have hread (i : Nat) := Memory.read_write s.bm (flatIndex s.rows column row) i lit hwf
  exact ⟨_, exec_setdot_of_inBounds lit hc ((inBounds_iff s column row).2 ⟨hcol, hrow⟩), rfl,
    (hread _).trans (if_pos rfl), fun i hi => (hread i).trans (if_neg hi)⟩

/-- Settles O21: a coordinate out of bounds is raised before the bitmap is written. -/
theorem setdotOutOfBoundsChangesNothing : Obligations.SetdotOutOfBoundsChangesNothing := fun _ _ lit _ hc hb =>
  exec_setdot_of_outOfBounds lit hc hb

/-- With its column in bounds `SETDOT` is answered by its row alone. -/
theorem exec_setdot_responses {column row : Word32} (lit : BitVec 1) {s : State} (hc : s.configured = true)
    (hcol : column.toNat < s.columns.toNat) :
    ∃ t, exec (.setdot column row lit) s = .next t
      ∧ t.responses = s.responses ++ [⟨if row.toNat < s.rows.toNat then .ok else .indexOutOfRange, []⟩] := by
  by_cases hrow : row.toNat < s.rows.toNat
  · rw [if_pos hrow]
    exact ⟨_, exec_setdot_of_inBounds lit hc ((inBounds_iff s column row).2 ⟨hcol, hrow⟩), rfl⟩
  · rw [if_neg hrow]
    exact ⟨_, exec_setdot_of_outOfBounds lit hc (.inr (Nat.not_lt.1 hrow)), rfl⟩

/-- Settles O22: after `CONFIG` the register that bounds the row holds the rounded row count. -/
theorem paddingRowsAreOrdinaryRows : Obligations.PaddingRowsAreOrdinaryRows := by
  intro address columns rowsReq column row lit s hrows hcells hcol
  obtain ⟨t₀, hconfig, ht₀, hrounded, -⟩ := configConstructsTheInstance address columns rowsReq s hrows hcells
  have hc : t₀.configured = true := congrArg State.configured ht₀
  have hcolumns : t₀.columns = columns := congrArg State.columns ht₀
  obtain ⟨t₁, hset, hresponses⟩ := exec_setdot_responses (row := row) lit hc (hcolumns ▸ hcol)
  rw [hrounded] at hresponses
  exact ⟨t₀, t₁, hconfig, hset, hresponses⟩

/-! ## Who changes a cell (R126) -/

/-- The command is of one of the four rows of the bitmap store. -/
def IsStoreCommand (i : Instr) : Prop :=
  i.row = rowConfig ∨ i.row = rowClear ∨ i.row = rowFill ∨ i.row = rowSetdot

theorem exec_bm {i : Instr} {s t : State} (h : exec i s = .next t) : t.bm = s.bm ∨ IsStoreCommand i := by
  obtain ⟨-, -, -, -, -, -, -, hbitmap⟩ := exec_effect i s t h
  rcases hbitmap with ⟨hbm, -⟩ | ⟨-, -, -, -, -, ⟨rfl, -⟩ | ⟨rfl, -⟩ | ⟨_, _, _, rfl, -⟩⟩ | ⟨_, _, _, rfl, -⟩
  · exact .inl hbm
  · exact .inr (.inr (.inl rfl))
  · exact .inr (.inr (.inr (.inl rfl)))
  · exact .inr (.inr (.inr (.inr rfl)))
  · exact .inr (.inl rfl)

theorem stepEvent_bm {e : Event} {s t : State} (h : stepEvent e s = .next t) : t.bm = s.bm := by
  rcases stepEvent_cases e s t h with ⟨-, -, rfl⟩ | ⟨-, -, rfl⟩ | ⟨-, -, -, rfl⟩ | ⟨-, -, f, -, rfl⟩
  all_goals rfl

theorem stepPacker_bm {s t : State} (h : stepPacker s = .next t) : t.bm = s.bm := (stepPacker_effect s t h).1

/-- Settles O24: of the outcomes of a step only a whole command writes the bitmap. -/
theorem onlyStoreCommandsChangeACell : Obligations.OnlyStoreCommandsChangeACell := by
  intro s t h hchanged
  rcases step_outcomes s t h with
    rfl | ⟨-, w, rest, i, hin, hd, hexec⟩ | ⟨rest, st, rfl⟩ | ⟨-, rest, o, hd, -, -, rfl⟩ | ⟨e, rest, -, hevent⟩
    | ⟨-, rest, hpack⟩
  · exact absurd rfl hchanged
  · exact ⟨w, rest, i, hin, hd, (exec_bm hexec).resolve_left hchanged⟩
  · exact absurd rfl hchanged
  · exact absurd rfl hchanged
  · exact absurd (stepEvent_bm hevent) hchanged
  · exact absurd (stepPacker_bm hpack) hchanged

end Sys2Proof.Machine
end

section
/-! `BUILD` and the frame it answers, and what a receiver can check of a frame (42_bitmap_to_frame_encoder.md R135 to R151). -/

namespace Sys2Proof.Machine

/-! ## The frame in the spec's arithmetic -/

/-- Header and body of the block are those of R145 over the natural numbers. -/
theorem spec_headAndBody_eq (address n : Nat) (bm : Memory) :
    Spec.headAndBody address n bm
      = [0x02, 0x31, BitVec.ofNat 8 (address + 0x30)] ++ Spec.encChars n ++ bodyBytes bm n := by
  rw [Spec.headAndBody, bodyBytes_eq]

/-- Where the block has a frame, and that it is the one of R145 over the natural numbers. -/
theorem frame_eq_some_iff_frameBytes (address : Byte) (columns rows : Word32) (bm : Memory) (f : List Byte) :
    frame address columns rows bm = some f ↔
      packedCount columns rows ≤ 255 ∧ address.toNat ≤ 207
        ∧ f = Spec.frameBytes address.toNat (packedCount columns rows) bm := by
  rw [Spec.frameBytes, List.append_assoc, spec_headAndBody_eq, frame_eq_some]
  constructor
  · rintro ⟨header, hheader, rfl⟩
    obtain ⟨hcount, haddress, rfl⟩ := (headerBytes_eq_some _ _ _).1 hheader
    exact ⟨hcount, by omega, by rw [footerBytes_eq]; rfl⟩
  · rintro ⟨hcount, haddress, rfl⟩
    exact ⟨_, (headerBytes_eq_some _ _ _).2 ⟨hcount, by omega, rfl⟩, by rw [footerBytes_eq]; rfl⟩

/-- The two range checks are all that can keep a frame from being built (R136, R137). -/
theorem frame_eq_none_iff (address : Byte) (columns rows : Word32) (bm : Memory) :
    frame address columns rows bm = none ↔ 255 < packedCount columns rows ∨ 208 ≤ address.toNat := by
  rw [frame_eq_none, headerBytes_eq_none]

/-! ## BUILD (R135, R147, R149) -/

theorem exec_build_of_frame {s : State} {f : List Byte} (hc : s.configured = true) (hf : s.frame = some f) :
    exec .build s = .next (s.respond .ok f) := by
  rcases execBuild_cases s with ⟨hc', -⟩ | ⟨-, hnone, -⟩ | ⟨-, f', hf', h⟩
  · exact absurd (hc.symm.trans hc') (by decide)
  · cases hf.symm.trans hnone
  · cases hf.symm.trans hf'
    exact h

theorem exec_build_of_noFrame {s : State} (hc : s.configured = true) (hf : s.frame = none) :
    exec .build s = .next (s.raise .invalidArgument) := by
  rcases execBuild_cases s with ⟨hc', -⟩ | ⟨-, -, h⟩ | ⟨-, f', hf', -⟩
  · exact absurd (hc.symm.trans hc') (by decide)
  · exact h
  · cases hf.symm.trans hf'

/-- Settles O30: within both limits the block's frame is the one of R145, and `BUILD` only answers it. -/
theorem buildAnswersTheWholeFrame : Obligations.BuildAnswersTheWholeFrame := fun _ hc hcount haddress =>
  exec_build_of_frame hc ((frame_eq_some_iff_frameBytes _ _ _ _ _).2 ⟨hcount, haddress, rfl⟩)

/-- Settles O31: past either limit there is no header, so no frame to answer. -/
theorem buildRejectsWhatHasNoFrame : Obligations.BuildRejectsWhatHasNoFrame := fun _ hc hlimit =>
  exec_build_of_noFrame hc ((frame_eq_none_iff _ _ _ _).2 hlimit)

/-! ## What a receiver can check (R151) -/

/-- The check value is the negation of the biased sum modulo 256 (43_checksum_accumulator.md R163, R164). -/
theorem add_one_add_checkOfSum_mod (sum : Nat) : (sum + 1 + Spec.checkOfSum sum) % 256 = 0 := by
  have hxor := xor_ff (BitVec.ofNat 8 (sum + 1))
  rw [BitVec.toNat_ofNat] at hxor
  rw [Spec.checkOfSum, hxor]
  omega

/-- A frame is `STX`, the bytes up to and including `ETX`, and the two characters of the check value. -/
theorem frame_eq_stx_middle_check {address : Byte} {columns rows : Word32} {bm : Memory} {f : List Byte}
    (h : frame address columns rows bm = some f) :
    ∃ middle, f = 0x02 :: (middle ++ [0x03]) ++ Spec.encChars (Spec.checkOfSum (2 + sumBytes middle)) := by
  obtain ⟨-, -, rfl⟩ := (frame_eq_some_iff_frameBytes _ _ _ _ _).1 h
  exact ⟨(Spec.headAndBody address.toNat (packedCount columns rows) bm).tail, rfl⟩

/-- Settles O34: the check value negates `2 + sum + 1`, with `STX` and the bias, and the slice sums to `sum + 3`, with `ETX`. -/
theorem bytesAfterStxAndCheckSumToZero : Obligations.BytesAfterStxAndCheckSumToZero := by
  intro address columns rows m f h
  obtain ⟨middle, rfl⟩ := frame_eq_stx_middle_check h
  have hneg := add_one_add_checkOfSum_mod (2 + sumBytes middle)
  have hle := checkOfSum_le (2 + sumBytes middle)
  have hetx : sumBytes [0x03] = 3 := rfl
  generalize Spec.checkOfSum (2 + sumBytes middle) = K at hneg hle ⊢
  refine ⟨K, Nat.lt_succ_of_le hle, List.drop_left' (by simp [Spec.encChars]), ?_⟩
  rw [List.cons_append, List.drop_succ_cons, List.drop_zero, List.take_left' (by simp [Spec.encChars]),
    sumBytes_append, hetx]
  omega

end Sys2Proof.Machine
end

section
/-! The checksum accumulator: its width, its range over a frame, and the check value (43_checksum_accumulator.md R164 to R166). -/

namespace Sys2Proof.Machine

/-! ## The check value (R164) -/

/-- Settles O35: `S XOR 0xFF` is `255 - S`, so the check value is `256 - S` reduced modulo 256. -/
theorem checkValueIsTheByteNegation : Obligations.CheckValueIsTheByteNegation := by
  intro S
  have hlt := S.isLt
  have hxor := xor_ff S
  have hcheck : (checkValue S).toNat = (256 - S.toNat) % 256 := by rw [checkValue_toNat, hxor]; omega
  exact ⟨checkValue_toNat S, hcheck, by omega⟩

/-! ## Narrow accumulation (R165) -/

/-- The low 8 bits after an addition depend on the low 8 bits before it alone. -/
theorem csaMasked_csaAdd (acc : BitVec 16) (b : Byte) : csaMasked (csaAdd acc b) = csaMasked acc + b := by
  apply BitVec.eq_of_toNat_eq
  simp only [csaMasked, BitVec.extractLsb'_toNat, csaAdd_toNat, BitVec.toNat_add, Nat.shiftRight_zero]
  omega

/-- Settles O36: masking carries each 16-bit addition to the 8-bit one, hence the whole fold, from 1 to 1. -/
theorem narrowAccumulationGivesTheSameMaskedSum : Obligations.NarrowAccumulationGivesTheSameMaskedSum := fun bytes =>
  (List.foldl_hom csaMasked (l := bytes) (init := csaInit) fun acc b => (csaMasked_csaAdd acc b).symm).symm

/-! ## The range of `ACC` over header and body (R166) -/

/-- Two hexadecimal characters, each from '0' to 'F'. -/
theorem sumBytes_encChars_bounds {v : Nat} (hv : v ≤ 255) :
    2 * 0x30 ≤ sumBytes (Spec.encChars v) ∧ sumBytes (Spec.encChars v) ≤ 2 * 0x46 := by
  have hhigh := isHexCode_bounds _ (isHexCode_of_mem_encChars hv (.head _))
  have hlow := isHexCode_bounds _ (isHexCode_of_mem_encChars hv (.tail _ (.head _)))
  simp only [Spec.encChars, sumBytes_cons, sumBytes_nil]
  omega

/-- A body of `n` packed bytes is `2n` characters, each at most 'F'. -/
theorem sumBytes_bodyBytes_le (bm : Memory) (n : Nat) : sumBytes (bodyBytes bm n) ≤ 0x46 * (2 * n) := by
  rw [← bodyBytes_length bm n]
  exact sumBytes_le _ _ fun b hb => (isHexCode_bounds b (isHexCode_of_mem_bodyBytes hb)).2

/-- The header sums to between 195 and 446, and at most 510 body characters add at most 35700. -/
theorem sumBytes_headAndBody_bounds {address n : Nat} (bm : Memory) (haddress : address ≤ 207) (hn : n ≤ 255) :
    195 ≤ sumBytes (Spec.headAndBody address n bm) ∧ sumBytes (Spec.headAndBody address n bm) ≤ 36146 := by
  have hbody := sumBytes_bodyBytes_le bm n
  obtain ⟨hlengthLow, hlengthHigh⟩ := sumBytes_encChars_bounds hn
  have hfixed : sumBytes [0x02, 0x31, BitVec.ofNat 8 (address + 0x30)] = 0x02 + 0x31 + (address + 0x30) := by
    simp only [sumBytes_cons, sumBytes_nil, BitVec.toNat_ofNat, BitVec.reduceToNat]
    omega
  rw [spec_headAndBody_eq, sumBytes_append, sumBytes_append, hfixed]
  omega

/-- A frame without its three footer bytes is header and body. -/
theorem frame_take_eq_headAndBody {address : Byte} {columns rows : Word32} {bm : Memory} {f : List Byte}
    (h : frame address columns rows bm = some f) :
    f.take (f.length - 3) = Spec.headAndBody address.toNat (packedCount columns rows) bm := by
  obtain ⟨-, -, rfl⟩ := (frame_eq_some_iff_frameBytes _ _ _ _ _).1 h
  rw [Spec.frameBytes, List.append_assoc]
  exact List.take_left' (by simp [Spec.encChars])

/-- Settles O37: the sum stays within 195 and 36146, so the 16-bit accumulator never wraps. -/
theorem accumulatorNeverOverflows : Obligations.AccumulatorNeverOverflows := by
  intro address columns rows m f h
  obtain ⟨hcount, haddress, -⟩ := (frame_eq_some_iff_frameBytes _ _ _ _ _).1 h
  obtain ⟨hlow, hhigh⟩ := sumBytes_headAndBody_bounds m haddress hcount
  rw [frame_take_eq_headAndBody h, csaSum_toNat]
  exact ⟨Nat.mod_eq_of_lt (by omega), by omega, by omega⟩

end Sys2Proof.Machine
end

section
/-! The start of a byte-level build, and the checks that keep it from starting (44_serial_frame_packer.md R177). -/

namespace Sys2Proof.Machine

/-! ## The checks passed -/

theorem beginBuild_of_header {s : State} (hc : s.configured = true) {header : List Byte}
    (hh : headerBytes s.address s.packedCount = some header) : beginBuild s = .next (startBuild .build s) := by
  simp [beginBuild, hc, hh]

theorem beginSend_of_header {s : State} (hc : s.configured = true) (ht : s.tstate = .ready) (hp : s.pending = none)
    {header : List Byte} (hh : headerBytes s.address s.packedCount = some header) :
    beginSend s = .next (startBuild .send s) := by
  simp [beginSend, State.hasPending, hc, ht, hp, hh]

/-- `i` is a command whose build the block serves in state `s`, as far as the transport and `PENDING` decide. -/
def StartsBuild (i : Instr) (owner : BuildOwner) (s : State) : Prop :=
  (i = .build ∧ owner = .build) ∨ (i = .send ∧ owner = .send ∧ s.tstate = .ready ∧ s.pending = none)

theorem execSerial_startsBuild {i : Instr} {owner : BuildOwner} {s : State} (hi : StartsBuild i owner s)
    (hc : s.configured = true) {header : List Byte} (hh : headerBytes s.address s.packedCount = some header) :
    execSerial i s = .next (startBuild owner s) := by
  rcases hi with ⟨rfl, rfl⟩ | ⟨rfl, rfl, ht, hp⟩
  · exact beginBuild_of_header hc hh
  · exact beginSend_of_header hc ht hp hh

/-- A word of such a command, taken by the port at the byte level. -/
theorem step_startsBuild {s : State} {w : CommandWord} {rest : List Input} {i : Instr} {owner : BuildOwner}
    (hidle : s.packer.phase = .idle) (hin : s.inputs = .serialCommand w :: rest) (hd : decode w = .ok i)
    (hi : StartsBuild i owner s) (hc : s.configured = true) {header : List Byte}
    (hh : headerBytes s.address s.packedCount = some header) :
    step s = .next (startBuild owner (s.writeInputs rest)) :=
  calc step s = stepSerialCommand w (s.writeInputs rest) := step_serialCommand s w rest hidle hin
    _ = execSerial i (s.writeInputs rest) := stepSerialCommand_of_decode hd _
    _ = .next (startBuild owner (s.writeInputs rest)) := execSerial_startsBuild (s := s.writeInputs rest) hi hc hh

/-- Settles O51: within both limits there is a header, so every check passes. -/
theorem buildStartsAfterItsChecks : Obligations.BuildStartsAfterItsChecks := by
  intro s w rest i owner hidle hin hd hi hc hcount haddress
  have hh := (headerBytes_eq_some s.address s.packedCount _).2 ⟨hcount, by omega, rfl⟩
  exact step_startsBuild hidle hin hd hi hc hh

/-! ## A check failed (42_bitmap_to_frame_encoder.md R147) -/

/-- Where the atomic command has no frame, the byte level has no header to start from. -/
theorem State.headerBytes_eq_none_of_frame {s : State} (hf : s.frame = none) :
    headerBytes s.address s.packedCount = none := (frame_eq_none _ _ _ _).1 hf

theorem beginBuild_eq_execBuild {s : State} (h : s.configured = false ∨ s.frame = none) :
    beginBuild s = execBuild s := by
  rcases h with hc | hf
  · simp [beginBuild, execBuild, hc]
  · simp [beginBuild, execBuild, hf, State.headerBytes_eq_none_of_frame hf]

theorem beginSend_eq_execSend {s : State}
    (h : s.configured = false ∨ s.tstate ≠ .ready ∨ s.pending ≠ none ∨ s.frame = none) :
    beginSend s = execSend s := by
  rcases h with hc | ht | hp | hf
  · simp [beginSend, execSend, hc]
  · simp [beginSend, execSend, ht]
  · simp [beginSend, execSend, State.hasPending, Option.isSome_iff_ne_none, hp]
  · simp [beginSend, execSend, hf, State.headerBytes_eq_none_of_frame hf]

/-- The response a command has given, read off the list it was appended to. -/
theorem status_eq_of_responses {s t : State} {st : Status} {payload : List Byte} {r : Response}
    (ht : t.responses = s.responses ++ [⟨st, payload⟩]) (hr : t.responses = s.responses ++ [r]) : r.status = st := by
  have h : (⟨st, payload⟩ : Response) = r := by simpa using ht.symm.trans hr
  rw [← h]

/-- Settles O52: where `BUILD` or `SEND` does not answer `Ok`, one of its checks failed, and the byte level makes the same
checks in the same order. -/
theorem failedChecksStartNoBuild : Obligations.FailedChecksStartNoBuild := by
  intro i s t r hi hexec hresp hfail
  rcases hi with rfl | rfl
  · refine (beginBuild_eq_execBuild ?_).trans hexec
    rcases execBuild_cases s with ⟨hc, -⟩ | ⟨-, hf, -⟩ | ⟨-, f, -, hok⟩
    · exact .inl hc
    · exact .inr hf
    · cases hexec.symm.trans hok
      exact absurd (status_eq_of_responses rfl hresp) hfail
  · refine (beginSend_eq_execSend ?_).trans hexec
    rcases execSend_cases s with ⟨hc, -⟩ | ⟨-, ht, -⟩ | ⟨-, -, hp, -⟩ | ⟨-, -, -, hf, -⟩ | ⟨-, -, -, f, -, hok⟩
    · exact .inl hc
    · exact .inr (.inl ht)
    · exact .inr (.inr (.inl hp))
    · exact .inr (.inr (.inr hf))
    · cases hexec.symm.trans hok
      exact absurd (status_eq_of_responses rfl hresp) hfail

end Sys2Proof.Machine
end

section
/-! One step of the packer in each phase, in the spec's arithmetic (44_serial_frame_packer.md R178 to R183). -/

namespace Sys2Proof.Machine

/-! ## The step where it is enabled (R178, R179, R182) -/

section
variable {s : State}

theorem stepPacker_of_header (hph : s.packer.phase = .hdr) {header : List Byte}
    (hh : headerBytes s.address s.packedCount = some header) {b : Byte} (hb : header[s.packer.pos.toNat]? = some b) :
    stepPacker s = .next (s.writePacker ((s.packer.emitSummed b).afterHeader s.packedCount)) := by
  simp only [stepPacker, hph, stepHeader, hh, hb]

theorem stepPacker_of_even (hph : s.packer.phase = .body) (hlt : s.packer.pos.toNat < 2 * s.packedCount)
    (heven : s.packer.pos.toNat % 2 = 0) : stepPacker s = .next (s.writePacker (s.packer.highHalf s.bm)) := by
  simp only [stepPacker, hph, stepBody, if_pos hlt, if_pos heven]

theorem stepPacker_of_odd (hph : s.packer.phase = .body) (hlt : s.packer.pos.toNat < 2 * s.packedCount)
    (hodd : s.packer.pos.toNat % 2 = 1) : stepPacker s = .next (s.writePacker (s.packer.lowHalf s.packedCount)) := by
  simp only [stepPacker, hph, stepBody, if_pos hlt, if_neg (show ¬ s.packer.pos.toNat % 2 = 0 by omega)]

theorem stepPacker_of_footerEtx (hph : s.packer.phase = .ftr) (hpos : s.packer.pos = 0) :
    stepPacker s = .next (s.writePacker s.packer.footerEtx) := by
  simp only [stepPacker, hph, stepFooter, if_pos hpos]

theorem stepPacker_of_footerHigh (hph : s.packer.phase = .ftr) (hpos : s.packer.pos = 1) :
    stepPacker s = .next (s.writePacker s.packer.footerHigh) := by
  simp [stepPacker, hph, stepFooter, hpos]

theorem stepPacker_of_footerLow (hph : s.packer.phase = .ftr) (hpos : s.packer.pos = 2) :
    stepPacker s = .next (finishBuild (s.writePacker s.packer.footerLow)) := by
  simp [stepPacker, hph, stepFooter, hpos]

end

/-! ## What each step writes, in the spec's arithmetic -/

/-- The high character of a byte is that of its high nibble (40_ascii_hex_byte_encoder.md R100). -/
theorem ahe_fst (v : Byte) : (ahe v).1 = Spec.hexCode (v.toNat / 16) := (List.cons.inj (aheBytes_eq v)).1

theorem ahe_snd (v : Byte) : (ahe v).2 = Spec.hexCode (v.toNat % 16) :=
  (List.cons.inj (List.cons.inj (aheBytes_eq v)).2).1

theorem csaMasked_eq_ofNat (acc : BitVec 16) : csaMasked acc = BitVec.ofNat 8 (acc.toNat % 256) := by
  apply BitVec.eq_of_toNat_eq
  simp [csaMasked, BitVec.extractLsb'_toNat]

theorem checkValue_csaMasked (acc : BitVec 16) :
    checkValue (csaMasked acc) = BitVec.ofNat 8 (((acc.toNat % 256 ^^^ 0xFF) + 1) % 256) := by
  apply BitVec.eq_of_toNat_eq
  rw [checkValue_toNat, csaMasked_eq_ofNat]
  simp

/-- The even half of a body step, with the gathering done (R179, R181). -/
theorem Packer.highHalf_eq (p : Packer) (bm : Memory) :
    p.highHalf bm = { p.emitSummed (ahe (packedByte bm (p.pos.toNat / 2))).1 with
      shreg := packedByte bm (p.pos.toNat / 2)
      bitcnt := 8
      pos := p.pos + 1 } := by
  rw [Packer.highHalf, Packer.gather_eq]
  rfl

/-- A header step's move, the two registers each by themselves (R178). -/
theorem Packer.afterHeader_eq (p : Packer) (n : Nat) :
    p.afterHeader n = { p with
      pos := if p.pos.toNat < 4 then p.pos + 1 else 0
      phase := if p.pos.toNat < 4 then p.phase else if n = 0 then .ftr else .body } := by
  unfold Packer.afterHeader
  split <;> rfl

/-- The odd half of a body step, the two registers it moves each by themselves (R179). -/
theorem Packer.lowHalf_eq (p : Packer) (n : Nat) :
    p.lowHalf n = { p.emitSummed (ahe p.shreg).2 with
      shreg := 0
      bitcnt := 0
      pos := if p.pos.toNat < 2 * n - 1 then p.pos + 1 else 0
      phase := if p.pos.toNat < 2 * n - 1 then p.phase else .ftr } := by
  unfold Packer.lowHalf
  simp only
  split <;> rfl

/-- The end of a build, the two fields that depend on its command each by themselves (R175, R183). -/
theorem finishBuild_eq (s : State) :
    finishBuild s = { s with
      pending := if s.packer.owner = .send then some s.packer.out else s.pending
      responses := s.responses ++ [⟨.ok, if s.packer.owner = .send then [] else s.packer.out⟩] } := by
  cases howner : s.packer.owner with
  | build => simp only [finishBuild, howner]; rfl
  | send => simp only [finishBuild, howner]; rfl

/-- Settles O53: both limits give the header, and its byte at `POS` is the one named. -/
theorem headerStepEmitsOneHeaderByte : Obligations.HeaderStepEmitsOneHeaderByte := by
  intro s b hph _ hcount haddress hb
  have hh := (headerBytes_eq_some s.address s.packedCount _).2 ⟨hcount, by omega, rfl⟩
  rw [stepPacker_of_header hph hh hb, Packer.afterHeader_eq]
  simp only [Packer.emitSummed, Packer.emit, csaAdd, hph]
  rfl

/-- Settles O54: the gathered byte is `P_k`, and its high character is that of its high nibble. -/
theorem evenBodyStepGathersAPackedByte : Obligations.EvenBodyStepGathersAPackedByte := by
  intro s k hph hpos hk
  have hcount : k < s.packedCount := hk
  rw [stepPacker_of_even hph (by omega) (by omega), Packer.highHalf_eq, ahe_fst, packedByte_toNat, hpos,
    Nat.mul_div_cancel_left k (by decide)]
  rfl

/-- Settles O55: the low character is that of the low nibble of SHREG, and `POS` and `PHASE` move by the same test. -/
theorem oddBodyStepEmitsTheLowCharacter : Obligations.OddBodyStepEmitsTheLowCharacter := by
  intro s k hph hpos hk
  have hcount : k < s.packedCount := hk
  rw [stepPacker_of_odd hph (by omega) (by omega), Packer.lowHalf_eq, ahe_snd, hph, hpos]
  rfl

/-- Settles O56: `S` and `K` come from the low 8 bits of `ACC`, and the two characters are those of the nibbles of `K`. -/
theorem footerStepsEmitEtxAndCheck : Obligations.FooterStepsEmitEtxAndCheck := by
  intro s hph
  refine ⟨fun h0 => ?_, fun h1 => ?_, fun h2 => ?_⟩
  · rw [stepPacker_of_footerEtx hph h0, Packer.footerEtx, checkValue_csaMasked, csaMasked_eq_ofNat]
    rfl
  · rw [stepPacker_of_footerHigh hph h1, Packer.footerHigh, ahe_fst]
    rfl
  · refine ⟨_, stepPacker_of_footerLow hph h2, ?_⟩
    rw [finishBuild_eq, Packer.footerLow, ahe_snd]
    exact ⟨rfl, rfl⟩

end Sys2Proof.Machine
end

section
/-! `PHASE` over every step of the machine, and the port during a build (44_serial_frame_packer.md R176, R189). -/

namespace Sys2Proof.Machine

/-! ## PHASE (R176) -/

/-- `PHASE` of `t` is that of `s` or the next in the order of R176. -/
def PhaseFollows (s t : State) : Prop :=
  t.packer.phase = s.packer.phase
    ∨ (s.packer.phase = .idle ∧ t.packer.phase = .hdr)
    ∨ (s.packer.phase = .hdr ∧ t.packer.phase = .body ∧ s.packedCount ≠ 0)
    ∨ (s.packer.phase = .hdr ∧ t.packer.phase = .ftr ∧ s.packedCount = 0)
    ∨ (s.packer.phase = .body ∧ t.packer.phase = .ftr)
    ∨ (s.packer.phase = .ftr ∧ t.packer.phase = .idle)

/-- Taking an input leaves the packer and the packed count alone. -/
theorem PhaseFollows.of_writeInputs {s t : State} {rest : List Input} (h : PhaseFollows (s.writeInputs rest) t) :
    PhaseFollows s t := h

theorem PhaseFollows.of_packer_eq {s t : State} (h : t.packer = s.packer) : PhaseFollows s t :=
  .inl (congrArg Packer.phase h)

/-- A command writes nothing of the packer (10_state.md R37). -/
theorem exec_packer {i : Instr} {s t : State} (h : exec i s = .next t) : t.packer = s.packer := by
  obtain ⟨-, -, hpacker, -⟩ := exec_effect i s t h
  exact hpacker

theorem stepCommand_packer {w : CommandWord} {s t : State} (h : stepCommand w s = .next t) : t.packer = s.packer := by
  rcases stepCommand_cases w s with ⟨i, -, he⟩ | ⟨-, -, he⟩ <;> rw [he] at h
  · exact exec_packer h
  · cases h
    rfl

/-- A word taken at the byte level leaves `PHASE` as it is, or starts a build (R177). -/
theorem stepSerialCommand_phase {w : CommandWord} {s t : State} (h : stepSerialCommand w s = .next t) :
    t.packer.phase = s.packer.phase ∨ t.packer.phase = .hdr := by
  rcases stepSerialCommand_cases w s with ⟨i, -, he⟩ | ⟨-, -, he⟩ <;> rw [he] at h
  · rcases execSerial_cases i s t h with ⟨hexec, -⟩ | ⟨-, st, rfl⟩ | ⟨-, o, hd, -, rfl, -⟩
    · exact .inl (congrArg Packer.phase (exec_packer hexec))
    · exact .inl rfl
    · exact .inr rfl
  · cases h
    exact .inl rfl

theorem stepEvent_packer {e : Event} {s t : State} (h : stepEvent e s = .next t) : t.packer = s.packer := by
  rcases stepEvent_cases e s t h with ⟨-, -, rfl⟩ | ⟨-, -, rfl⟩ | ⟨-, -, -, rfl⟩ | ⟨-, -, f, -, rfl⟩
  all_goals rfl

theorem stepPacker_phaseFollows {s t : State} (h : stepPacker s = .next t) : PhaseFollows s t := by
  rcases stepPacker_cases s t h with
    ⟨hph, header, b, -, -, rfl⟩ | ⟨-, -, -, rfl⟩ | ⟨hph, -, -, rfl⟩ | ⟨-, -, rfl⟩ | ⟨-, -, rfl⟩ | ⟨hph, -, rfl⟩
  · rw [PhaseFollows, State.writePacker_packer, Packer.afterHeader_eq]
    by_cases hlt : (s.packer.emitSummed b).pos.toNat < 4
    · exact .inl (if_pos hlt)
    · by_cases hn : s.packedCount = 0
      · exact .inr (.inr (.inr (.inl ⟨hph, (if_neg hlt).trans (if_pos hn), hn⟩)))
      · exact .inr (.inr (.inl ⟨hph, (if_neg hlt).trans (if_neg hn), hn⟩))
  · rw [PhaseFollows, State.writePacker_packer, Packer.highHalf_eq]
    exact .inl rfl
  · rw [PhaseFollows, State.writePacker_packer, Packer.lowHalf_eq]
    by_cases hlt : s.packer.pos.toNat < 2 * s.packedCount - 1
    · exact .inl (if_pos hlt)
    · exact .inr (.inr (.inr (.inr (.inl ⟨hph, if_neg hlt⟩))))
  · exact .inl rfl
  · exact .inl rfl
  · rw [PhaseFollows, finishBuild_eq]
    exact .inr (.inr (.inr (.inr (.inr ⟨hph, rfl⟩))))

/-- Settles O57: only the start of a build and the packer's own steps write `PHASE`. -/
theorem phaseMovesInOrder : Obligations.PhaseMovesInOrder := by
  refine ⟨fun s t h => ?_, fun i s t h => ?_⟩
  · change PhaseFollows s t
    rcases step_cases s t h with
      ⟨-, -, rfl⟩ | ⟨-, w, rest, -, hw⟩ | ⟨hidle, w, rest, -, hw⟩ | ⟨e, rest, -, hevent⟩ | ⟨-, rest, -, hpack⟩
    · exact .inl rfl
    · exact (PhaseFollows.of_packer_eq (stepCommand_packer hw)).of_writeInputs
    · exact (stepSerialCommand_phase hw).imp id (fun hhdr => .inl ⟨hidle, hhdr⟩)
    · exact (PhaseFollows.of_packer_eq (stepEvent_packer hevent)).of_writeInputs
    · exact (stepPacker_phaseFollows hpack).of_writeInputs
  · rw [exec_packer h]
    exact ⟨rfl, rfl⟩

/-! ## The port during a build (R189) -/

/-- No event and no step of the packer is offered next: the list is empty, or a command waits at its head. -/
def NoStepOffered (inputs : List Input) : Prop :=
  inputs = [] ∨ ∃ w rest, inputs = .command w :: rest ∨ inputs = .serialCommand w :: rest

/-- With no step offered the packer goes on, and a waiting command stays where it is. -/
theorem step_eq_stepPacker {s : State} (hbusy : s.packer.phase ≠ .idle) (hin : NoStepOffered s.inputs) :
    step s = stepPacker s := by
  rcases hin with hin | ⟨w, rest, hin | hin⟩
  all_goals simp only [step, if_neg hbusy, stepBuilding, hin]

/-- Settles O58: the step is the packer's, which writes the packer, and at its end `PENDING` and the responses. -/
theorem commandsWaitDuringABuild : Obligations.CommandsWaitDuringABuild := by
  intro s t w rest hbusy hin h
  rw [step_eq_stepPacker hbusy (.inr ⟨w, rest, hin⟩)] at h
  obtain ⟨hbm, haddress, hcolumns, hrows, hconfigured, htstate, htxlog, hinputs, -⟩ := stepPacker_effect s t h
  exact ⟨hinputs, hbm, haddress, hcolumns, hrows, hconfigured, htstate, htxlog⟩

end Sys2Proof.Machine
end

section
/-! The byte-by-byte build against the command (44_serial_frame_packer.md R190). -/

namespace Sys2Proof.Machine

/-! ## Where a build stands in each phase (R177 to R182) -/

section
variable {p : Packer} {header bytes : List Byte} {bm : Memory} (h : BuildStands p header bytes bm)
include h

theorem BuildStands.hdr (hph : p.phase = .hdr) : p.pos.toNat ≤ 4 ∧ p.out = header.take p.pos.toNat := by
  simp only [BuildStands, hph] at h
  obtain ⟨hpos, hout, -⟩ := h
  exact ⟨hpos, hout⟩

theorem BuildStands.body (hph : p.phase = .body) :
    p.pos.toNat < bytes.length ∧ p.out = header ++ bytes.take p.pos.toNat := by
  simp only [BuildStands, hph] at h
  obtain ⟨hpos, hout, -⟩ := h
  exact ⟨hpos, hout⟩

theorem BuildStands.ftr (hph : p.phase = .ftr) :
    p.pos.toNat ≤ 2 ∧ p.out = header ++ bytes ++ (footerBytes (header ++ bytes)).take p.pos.toNat := by
  simp only [BuildStands, hph] at h
  obtain ⟨hpos, hout, -⟩ := h
  exact ⟨hpos, hout⟩

end

/-! ## A build in progress, byte by byte -/

/-- A build of the frame with this header is in progress, and `k` bytes of the frame are still to be emitted. -/
structure Building (s : State) (header : List Byte) (k : Nat) : Prop where
  header_eq : headerBytes s.address s.packedCount = some header
  busy : s.packer.phase ≠ .idle
  stands : BuildStands s.packer header (bodyBytes s.bm s.packedCount) s.bm
  left : s.packer.out.length + k = 8 + 2 * s.packedCount

theorem Packer.afterHeader_out (p : Packer) (n : Nat) : (p.afterHeader n).out = p.out := by
  rw [Packer.afterHeader_eq]

theorem Packer.afterHeader_busy {p : Packer} (n : Nat) (h : p.phase ≠ .idle) : (p.afterHeader n).phase ≠ .idle := by
  rw [Packer.afterHeader_eq]
  simp only
  split
  · exact h
  · split <;> decide

/-- One more byte is emitted and the build goes on. -/
theorem Building.emit {s : State} {header : List Byte} {k : Nat} (h : Building s header (k + 1)) {q : Packer} {b : Byte}
    (hout : q.out = s.packer.out ++ [b]) (hbusy : q.phase ≠ .idle)
    (hstands : BuildStands q header (bodyBytes s.bm s.packedCount) s.bm) : Building (s.writePacker q) header k where
  header_eq := h.header_eq
  busy := hbusy
  stands := hstands
  left := by
    have hleft := h.left
    rw [State.writePacker_packer, hout, List.length_append, List.length_singleton]
    change _ = 8 + 2 * s.packedCount
    omega

/-- While a build is in progress at least one byte is still to come: the last one ends it. -/
theorem Building.ne_zero {s : State} {header : List Byte} {k : Nat} (h : Building s header k) : k ≠ 0 := by
  have hleft := h.left
  have hheader := headerBytes_length _ _ _ h.header_eq
  have hbody := bodyBytes_length s.bm s.packedCount
  cases hph : s.packer.phase with
  | idle => exact absurd hph h.busy
  | hdr =>
    obtain ⟨hpos, hout⟩ := h.stands.hdr hph
    rw [hout, List.length_take] at hleft
    omega
  | body =>
    obtain ⟨hpos, hout⟩ := h.stands.body hph
    rw [hout, List.length_append, List.length_take] at hleft
    omega
  | ftr =>
    obtain ⟨hpos, hout⟩ := h.stands.ftr hph
    rw [hout, List.length_append, List.length_append, List.length_take] at hleft
    omega

/-- The packer's step goes on with the build, for the same command, and `k` bytes are left after it. -/
def BuildGoesOn (s : State) (header : List Byte) (k : Nat) : Prop :=
  ∃ q, stepPacker s = .next (s.writePacker q) ∧ q.owner = s.packer.owner ∧ Building (s.writePacker q) header k

/-- `n` steps of the machine end the build, for the same command, with the frame complete (R183). -/
def BuildEndsAfter (s : State) (n : Nat) : Prop :=
  ∃ q, Sys2Proof.core.run n s = .next (finishBuild (s.writePacker q)) ∧ q.owner = s.packer.owner ∧ q.phase = .idle
    ∧ s.frame = some q.out

section
variable {s : State} {header : List Byte} {k : Nat} (h : Building s header (k + 1))
include h

theorem Building.header_step (hph : s.packer.phase = .hdr) : BuildGoesOn s header k := by
  have hlength := headerBytes_length _ _ _ h.header_eq
  obtain ⟨hpos, -⟩ := h.stands.hdr hph
  have hb := List.getElem?_eq_getElem (l := header) (i := s.packer.pos.toNat) (by omega)
  exact ⟨_, stepPacker_of_header hph h.header_eq hb, Packer.afterHeader_owner _ _,
    h.emit (Packer.afterHeader_out _ _) (Packer.afterHeader_busy _ h.busy)
      (headerStep_stands _ _ _ _ _ _ hlength (bodyBytes_length _ _) hph h.stands hb)⟩

theorem Building.body_step (hph : s.packer.phase = .body) : BuildGoesOn s header k := by
  have hcount := ((headerBytes_eq_some _ _ _).1 h.header_eq).1
  obtain ⟨hpos, -⟩ := h.stands.body hph
  rw [bodyBytes_length] at hpos
  rcases Nat.mod_two_eq_zero_or_one s.packer.pos.toNat with heven | hodd
  · refine ⟨_, stepPacker_of_even hph hpos heven, Packer.highHalf_owner _ _,
      h.emit (b := (ahe (packedByte s.bm (s.packer.pos.toNat / 2))).1) ?_ ?_
        (highHalf_stands _ _ _ _ hcount hph h.stands heven)⟩ <;> rw [Packer.highHalf_eq]
    · rfl
    · exact h.busy
  · refine ⟨_, stepPacker_of_odd hph hpos hodd, Packer.lowHalf_owner _ _,
      h.emit (b := (ahe s.packer.shreg).2) ?_ ?_ (lowHalf_stands _ _ _ _ hcount hph h.stands hodd)⟩ <;>
      rw [Packer.lowHalf_eq]
    · rfl
    · simp only
      split
      · exact h.busy
      · decide

theorem Building.footer_step (hph : s.packer.phase = .ftr) : 
    BuildGoesOn s header k
    ∨ (k = 0 ∧ stepPacker s = .next (finishBuild (s.writePacker s.packer.footerLow))
      ∧ s.frame = some s.packer.footerLow.out) := by
  obtain ⟨hle, -⟩ := h.stands.ftr hph
  have hpos : s.packer.pos = 0 ∨ s.packer.pos = 1 ∨ s.packer.pos = 2 := by bv_omega
  rcases hpos with h0 | h1 | h2
  · exact .inl ⟨_, stepPacker_of_footerEtx hph h0, rfl,
      h.emit rfl h.busy (footerEtx_stands _ _ _ _ hph h.stands h0)⟩
  · exact .inl ⟨_, stepPacker_of_footerHigh hph h1, rfl,
      h.emit rfl h.busy (footerHigh_stands _ _ _ _ hph h.stands h1)⟩
  · have hframe : s.frame = some s.packer.footerLow.out := by
      rw [footerLow_out _ _ _ _ hph h.stands h2]
      exact frame_of_header _ _ _ _ header h.header_eq
    have hlength : s.packer.out.length + 1 = 8 + 2 * s.packedCount := by
      calc s.packer.out.length + 1 = s.packer.footerLow.out.length := by simp [Packer.footerLow, Packer.emit]
        _ = 8 + 2 * s.packedCount := frame_length hframe
    have hleft := h.left
    exact .inr ⟨by omega, stepPacker_of_footerLow hph h2, hframe⟩

end

/-- A step of a build emits the next byte of the frame, and the last one ends the build. -/
theorem Building.step {s : State} {header : List Byte} {k : Nat} (h : Building s header (k + 1)) :
    BuildGoesOn s header k
    ∨ (k = 0 ∧ stepPacker s = .next (finishBuild (s.writePacker s.packer.footerLow))
      ∧ s.frame = some s.packer.footerLow.out) := by
  cases hph : s.packer.phase with
  | idle => exact absurd hph h.busy
  | hdr => exact .inl (h.header_step hph)
  | body => exact .inl (h.body_step hph)
  | ftr => exact h.footer_step hph

/-- With no event and no packer step offered, a build runs to its end in as many steps as bytes are left. -/
theorem Building.endsAfter {k : Nat} {s : State} {header : List Byte} (h : Building s header k)
    (hin : NoStepOffered s.inputs) : BuildEndsAfter s k := by
  induction k generalizing s with
  | zero => exact absurd rfl h.ne_zero
  | succ k ih =>
    have hport := step_eq_stepPacker h.busy hin
    rcases h.step with ⟨q, hstep, howner, hq⟩ | ⟨rfl, hstep, hframe⟩
    · obtain ⟨p, hrun, hp, hidle, hframe⟩ := ih hq hin
      exact ⟨p, (core_run_of_next k _ _ (hport.trans hstep)).trans hrun, hp.trans howner, hidle, hframe⟩
    · exact ⟨_, core_run_of_next 0 _ _ (hport.trans hstep), rfl, rfl, hframe⟩

theorem startBuild_building {owner : BuildOwner} {s : State} {header : List Byte}
    (hh : headerBytes s.address s.packedCount = some header) :
    Building (startBuild owner s) header (8 + 2 * s.packedCount) where
  header_eq := hh
  busy := show Phase.hdr ≠ .idle by decide
  stands := startBuild_stands _ _ _ _ _
  left := Nat.zero_add _

/-! ## The end of a build, and the whole of it -/

theorem exec_send_of_frame {s : State} {f : List Byte} (hc : s.configured = true) (ht : s.tstate = .ready)
    (hp : s.pending = none) (hf : s.frame = some f) : exec .send s = .next (s.writePending (some f)).done := by
  simp [exec, execSend, State.hasPending, hc, ht, hp, hf]

/-- The end of a build leaves what the atomic command leaves, but for the packer (R183, R190). -/
theorem exec_agrees_finishBuild {i : Instr} {s : State} {q : Packer} (hi : StartsBuild i q.owner s)
    (hc : s.configured = true) (hframe : s.frame = some q.out) :
    ∃ t, exec i s = .next t ∧ finishBuild (s.writePacker q) = t.writePacker q := by
  rcases hi with ⟨rfl, howner⟩ | ⟨rfl, howner, ht, hp⟩
  · refine ⟨_, exec_build_of_frame hc hframe, ?_⟩
    simp only [finishBuild, State.writePacker_packer, howner]
    rfl
  · refine ⟨_, exec_send_of_frame hc ht hp hframe, ?_⟩
    simp only [finishBuild, State.writePacker_packer, howner]
    rfl

/-- The command and the owner of its build are one choice. -/
theorem StartsBuild.exists_owner {i : Instr} {s : State}
    (h : i = .build ∨ (i = .send ∧ s.tstate = .ready ∧ s.pending = none)) : ∃ owner, StartsBuild i owner s := by
  rcases h with rfl | ⟨rfl, ht, hp⟩
  · exact ⟨.build, .inl ⟨rfl, rfl⟩⟩
  · exact ⟨.send, .inr ⟨rfl, rfl, ht, hp⟩⟩

/-- Settles O60: the start leaves all `8 + 2N` bytes of the frame to come, each step emits one, and the end of the build
leaves what the command leaves. -/
theorem byteLevelBuildAgreesWithTheCommand : Obligations.ByteLevelBuildAgreesWithTheCommand := by
  intro s w rest i f hidle hc hframe hd hi hin hrest
  obtain ⟨owner, hstarts⟩ := StartsBuild.exists_owner hi
  obtain ⟨header, hh, -⟩ := (frame_eq_some _ _ _ _ _).1 hframe
  have hstart := step_startsBuild hidle hin hd hstarts hc hh
  have hbuilding : Building (startBuild owner (s.writeInputs rest)) header (8 + 2 * s.packedCount) :=
    startBuild_building hh
  obtain ⟨q, hrun, howner, hqidle, hout⟩ := hbuilding.endsAfter hrest
  have hserves : StartsBuild i q.owner (s.writeInputs rest) := by
    rw [howner]
    exact hstarts
  obtain ⟨t, hexec, hfinish⟩ := exec_agrees_finishBuild hserves hc hout
  refine ⟨t, q, hexec, ?_, Option.some.inj (hout.symm.trans hframe), hqidle⟩
  rw [Nat.add_comm]
  calc Sys2Proof.core.run (8 + 2 * s.packedCount + 1) s
      = Sys2Proof.core.run (8 + 2 * s.packedCount) (startBuild owner (s.writeInputs rest)) :=
        core_run_of_next _ _ _ hstart
    _ = .next (finishBuild ((startBuild owner (s.writeInputs rest)).writePacker q)) := hrun
    _ = .next (t.writePacker q) := congrArg _ hfinish

end Sys2Proof.Machine
end

section
/-! Where the transport's and the timer's steps are enabled (45_transport_send.md R201, R207, R209). -/

namespace Sys2Proof.Machine

/-! ## One equation per event -/

theorem stepOpen_eq (s : State) :
    stepOpen s = if s.tstate = .closed then .next (s.writeTState .opening) else .fault (.eventNotEnabled .atOpen) := by
  cases h : s.tstate <;> simp [stepOpen, h]

theorem stepReady_eq (s : State) :
    stepReady s = if s.tstate = .opening then .next (s.writeTState .ready) else .fault (.eventNotEnabled .atReady) := by
  cases h : s.tstate <;> simp [stepReady, h]

theorem stepClose_eq (s : State) :
    stepClose s = if s.tstate = .closed then .fault (.eventNotEnabled .atClose)
      else if s.pending = none then .next (s.writeTState .closed) else .refused .closeWhilePending := by
  cases h : s.tstate with
  | closed => simp [stepClose, h]
  | opening | ready => cases hp : s.pending <;> simp [stepClose, State.hasPending, h, hp]

theorem stepFire_of_pending {s : State} {f : List Byte} (hf : s.pending = some f) (hready : s.tstate = .ready) :
    stepFire s = .next ((s.transmit f).writePending none) := by
  simp [stepFire, hf, hready]

theorem stepFire_of_notEnabled {s : State} (h : s.pending = none ∨ s.tstate ≠ .ready) :
    stepFire s = .fault (.eventNotEnabled .atFire) := by
  rcases h with hp | ht
  · simp [stepFire, hp]
  · cases hp : s.pending with
    | none => simp [stepFire, hp]
    | some f => cases h : s.tstate with
      | ready => exact absurd h ht
      | closed | opening => simp [stepFire, hp, h]

/-! ## The step of an offered event -/

/-- An `@fire` offered with a frame pending under a ready transport writes the frame (R207). -/
theorem step_fire {s : State} {f : List Byte} {rest : List Input} (hin : s.inputs = .event .atFire :: rest)
    (hf : s.pending = some f) (hready : s.tstate = .ready) :
    step s = .next (((s.writeInputs rest).transmit f).writePending none) :=
  (step_event s .atFire rest hin).trans (stepFire_of_pending (s := s.writeInputs rest) hf hready)

/-- Settles O46: the step is the event's, and an enabled `@fire` writes TXLOG and PENDING only. -/
theorem fireWritesThePendingFrame : Obligations.FireWritesThePendingFrame := fun _ _ _ hin hf hready =>
  step_fire hin hf hready

/-- Settles O47: in every phase of a build the step is the event's, and each event has its equation. -/
theorem eventsHappenExactlyWhereEnabled : Obligations.EventsHappenExactlyWhereEnabled := by
  intro s rest
  refine ⟨fun hin => ?_, fun hin => ?_, fun hin => ?_, fun hin => ⟨fun hoff => ?_, fun f hf hready => ?_⟩⟩
  · exact (step_event s .atOpen rest hin).trans (stepOpen_eq _)
  · exact (step_event s .atReady rest hin).trans (stepReady_eq _)
  · exact (step_event s .atClose rest hin).trans (stepClose_eq _)
  · exact (step_event s .atFire rest hin).trans (stepFire_of_notEnabled (s := s.writeInputs rest) hoff)
  · exact step_fire hin hf hready

end Sys2Proof.Machine
end

section
/-! The frame a `SEND` holds, and the steps under which it stays pending (45_transport_send.md R203, R210). -/

namespace Sys2Proof.Machine

/-! ## Commands -/

/-- Settles O43: within both limits the block's frame is the one of R145, and `SEND` only holds it in PENDING. -/
theorem sendHoldsTheFrameOfTheMoment : Obligations.SendHoldsTheFrameOfTheMoment :=
  fun _ hc hready hfree hcount haddress =>
    exec_send_of_frame hc hready hfree ((frame_eq_some_iff_frameBytes _ _ _ _ _).2 ⟨hcount, haddress, rfl⟩)

/-- The one command that writes PENDING, `SEND`, does so only where nothing is pending (R204). -/
theorem exec_keeps_pending {i : Instr} {s t : State} (h : exec i s = .next t) {f : List Byte}
    (hf : s.pending = some f) : t.pending = some f := by
  obtain ⟨-, -, -, -, -, -, hpend, -⟩ := exec_effect i s t h
  rcases hpend with hsame | ⟨-, hnone, -⟩
  · exact hsame.trans hf
  · cases hf.symm.trans hnone

/-- Settles O45: a failure writes none of the three, and a `SEND` that succeeds found nothing pending. -/
theorem commandsLeaveAPendingFrameAlone : Obligations.CommandsLeaveAPendingFrameAlone := by
  intro i s
  obtain ⟨t, h⟩ := exec_answers_next i s
  obtain ⟨-, -, -, htstate, htxlog, -⟩ := exec_effect i s t h
  exact ⟨t, h, htxlog, htstate, fun f hf => exec_keeps_pending h hf⟩

/-! ## Every step (R210) -/

/-- The next thing the environment offers is an `@fire`. -/
def FireOffered (s : State) : Prop :=
  ∃ rest, s.inputs = .event .atFire :: rest

/-- The packer's step keeps a pending frame: the build of a `SEND`, which ends by writing PENDING, runs only where nothing
is pending. -/
theorem Inv.stepPacker_keeps_pending {s t : State} (h : Inv s) (hbusy : s.packer.phase ≠ .idle)
    (hpack : Machine.stepPacker s = .next t) {f : List Byte} (hf : s.pending = some f) : t.pending = some f := by
  obtain ⟨-, -, -, -, -, -, -, -, hpend⟩ := stepPacker_effect s t hpack
  rcases hpend with hsame | ⟨hsend, -⟩
  · exact hsame.trans hf
  · obtain ⟨-, hfree, -⟩ := h.building hbusy
    cases hf.symm.trans (hfree hsend)

/-- Settles O49: of the outcomes of a step only `@fire` clears PENDING, and what fills it needs it empty. -/
theorem onlyFireClearsAPendingFrame : Obligations.OnlyFireClearsAPendingFrame := by
  intro s t f h hf hstep
  rcases step_outcomes s t hstep with
    rfl | ⟨-, w, rest, i, -, -, hexec⟩ | ⟨rest, st, rfl⟩ | ⟨-, rest, o, hd, -, -, rfl⟩ | ⟨e, rest, hin, hevent⟩
    | ⟨hbusy, rest, hpack⟩
  · exact .inl hf
  · exact .inl (exec_keeps_pending hexec hf)
  · exact .inl hf
  · exact .inl hf
  · rcases stepEvent_cases e _ t hevent with
      ⟨-, -, rfl⟩ | ⟨-, -, rfl⟩ | ⟨-, -, -, rfl⟩ | ⟨rfl, -⟩
    · exact .inl hf
    · exact .inl hf
    · exact .inl hf
    · exact .inr ⟨rest, hin⟩
  · exact .inl ((h.writeInputs rest).stepPacker_keeps_pending hbusy hpack hf)

/-- The transport stays ready under a pending frame: only `@close` leaves `Ready`, and it is refused there (R209). -/
theorem step_keeps_ready {s t : State} (hstep : step s = .next t) {f : List Byte} (hf : s.pending = some f)
    (hready : s.tstate = .ready) : t.tstate = .ready := by
  rcases step_outcomes s t hstep with
    rfl | ⟨-, w, rest, i, -, -, hexec⟩ | ⟨rest, st, rfl⟩ | ⟨-, rest, o, hd, -, -, rfl⟩ | ⟨e, rest, -, hevent⟩
    | ⟨-, rest, hpack⟩
  · exact hready
  · obtain ⟨-, -, -, htstate, -⟩ := exec_effect i _ t hexec
    exact htstate.trans hready
  · exact hready
  · exact hready
  · rcases stepEvent_cases e _ t hevent with
      ⟨-, hclosed, -⟩ | ⟨-, hopening, -⟩ | ⟨-, -, hnone, -⟩ | ⟨-, -, g, -, rfl⟩
    · cases hready.symm.trans hclosed
    · cases hready.symm.trans hopening
    · cases hf.symm.trans hnone
    · exact hready
  · obtain ⟨-, -, -, -, -, htstate, -⟩ := stepPacker_effect _ t hpack
    exact htstate.trans hready

/-! ## Runs without end (R208, 70_reset_and_hazards.md R264) -/

/-- A state of the invariant with the frame `f` pending under a ready transport. -/
structure InFlight (f : List Byte) (s : State) : Prop where
  inv : Inv s
  pending : s.pending = some f
  ready : s.tstate = .ready

theorem InFlight.fireEnabled {f : List Byte} {s : State} (h : InFlight f s) : s.fireEnabled = true :=
  (fireEnabled_iff s).2 ⟨by simp [h.pending], h.ready⟩

/-- What the environment offers is no part of being in flight. -/
theorem InFlight.writeInputs {f : List Byte} {s : State} (h : InFlight f s) (inputs : List Input) :
    InFlight f (s.writeInputs inputs) :=
  ⟨h.inv.writeInputs inputs, h.pending, h.ready⟩

theorem InFlight.step {f : List Byte} {s t : State} (h : InFlight f s) (hstep : step s = .next t) :
    InFlight f t ∨ FireOffered s :=
  (onlyFireClearsAPendingFrame s t f h.inv h.pending hstep).imp_left fun hf =>
    ⟨everyStepKeepsTheStateInvariant s t h.inv hstep, hf, step_keeps_ready hstep h.pending h.ready⟩

/-- Along a run a frame is in flight for as long as no `@fire` is offered under it. -/
theorem IsRun.inFlight {run : Nat → State} (hrun : IsRun run) {f : List Byte} {n : Nat} (h : InFlight f (run n))
    (hoff : ∀ k, n ≤ k → InFlight f (run k) → ¬ FireOffered (run k)) (m : Nat) (hm : n ≤ m) : InFlight f (run m) := by
  induction m, hm using Nat.le_induction with
  | base => exact h
  | succ m hm ih =>
    obtain ⟨t, more, hstep, hnext⟩ := hrun m
    rw [hnext]
    exact ((ih.step hstep).resolve_right (hoff m hm ih)).writeInputs _

/-- Under a fair timer an `@fire` is offered while the frame is still in flight. -/
theorem IsRun.exists_fireOffered {run : Nat → State} (hrun : IsRun run) (hfair : FairTimer run) {f : List Byte} {n : Nat}
    (h : InFlight f (run n)) : ∃ m, n ≤ m ∧ InFlight f (run m) ∧ FireOffered (run m) := by
  by_contra hno
  have hoff : ∀ k, n ≤ k → InFlight f (run k) → ¬ FireOffered (run k) := fun k hk hflight hfire =>
    hno ⟨k, hk, hflight, hfire⟩
  have hflight := hrun.inFlight h hoff
  obtain ⟨m, rest, hm, hin⟩ := hfair n (fun m hm => (hflight m hm).fireEnabled)
  exact hoff m hm (hflight m hm) ⟨rest, hin⟩

/-- Settles O50: the frame stays in flight until the `@fire` that fairness gives, and that step writes it. -/
theorem aPendingFrameCanAlwaysBeWritten : Obligations.APendingFrameCanAlwaysBeWritten := by
  refine ⟨fun s f rest h hf hready hin => ?_, fun run n f hrun hfair h hf hready => ?_⟩
  · exact ⟨_, step_fire hin hf hready, rfl, rfl, h.pendingFrame f hf⟩
  · obtain ⟨m, hm, hflight, rest, hin⟩ := hrun.exists_fireOffered hfair ⟨h, hf, hready⟩
    obtain ⟨t, more, hstep, hnext⟩ := hrun m
    cases (step_fire hin hflight.pending hflight.ready).symm.trans hstep
    refine ⟨m, hm, hflight.pending, ?_⟩
    rw [hnext]
    exact ⟨rfl, rfl⟩

end Sys2Proof.Machine
end

section
/-! Failures and their order (60_exceptions.md R231 to R233), and what an event leaves unchanged (R236). -/

namespace Sys2Proof.Machine

/-! ## NotConfigured (R231) -/

/-- The five commands that need a geometry test `CONFIGURED` before anything else. -/
theorem exec_of_unconfigured {i : Instr} {s : State} (hc : s.configured = false) (hconfig : i.row ≠ rowConfig)
    (hencode : i.row ≠ rowEncode) : exec i s = .next (s.raise .notConfigured) := by
  cases i with
  | config address columns rows => exact absurd rfl hconfig
  | encode value => exact absurd rfl hencode
  | clear | fill | setdot | build | send => exact if_pos hc

/-- Settles O38: the five commands are turned away at once, and `CONFIG` and `ENCODE` answer `Ok` or `InvalidArgument`. -/
theorem unconfiguredCommandsAreTurnedAway : Obligations.UnconfiguredCommandsAreTurnedAway := by
  refine ⟨fun i s hc hconfig hencode => exec_of_unconfigured hc hconfig hencode, fun i s hrow => ?_⟩
  cases i with
  | config address columns rows =>
    rcases execConfig_cases address columns rows s with ⟨-, -, h⟩ | ⟨-, h⟩
    · exact ⟨_, _, h, rfl, nofun⟩
    · exact ⟨_, _, h, rfl, nofun⟩
  | encode value =>
    rcases execEncode_cases value s with ⟨-, h⟩ | ⟨-, h⟩
    · exact ⟨_, _, h, rfl, nofun⟩
    · exact ⟨_, _, h, rfl, nofun⟩
  | clear | fill | setdot | build | send => exact absurd hrow (by simp only [Instr.row]; decide)

/-! ## A failure changes nothing (R232) -/

/-- What an atomic command may answer at `s`: a status raised on `s` itself, or an `Ok` added to the responses of `s`. -/
inductive RaisesOrSucceeds (o : Result) (s : State) : Prop where
  | raises {st : Status} (h : o = .next (s.raise st))
  | succeeds {u : State} {payload : List Byte} (h : o = .next (u.respond .ok payload)) (hu : u.responses = s.responses)

theorem exec_raisesOrSucceeds (i : Instr) (s : State) : RaisesOrSucceeds (exec i s) s := by
  cases i with
  | config address columns rows =>
    rcases execConfig_cases address columns rows s with ⟨-, -, h⟩ | ⟨-, h⟩
    · exact .succeeds h rfl
    · exact .raises h
  | clear =>
    rcases execClear_cases s with ⟨-, h⟩ | ⟨-, h⟩
    · exact .raises h
    · exact .succeeds h rfl
  | fill =>
    rcases execFill_cases s with ⟨-, h⟩ | ⟨-, h⟩
    · exact .raises h
    · exact .succeeds h rfl
  | setdot column row lit =>
    rcases execSetdot_cases column row lit s with ⟨-, h⟩ | ⟨-, -, h⟩ | ⟨-, -, h⟩
    · exact .raises h
    · exact .raises h
    · exact .succeeds h rfl
  | build =>
    rcases execBuild_cases s with ⟨-, h⟩ | ⟨-, -, h⟩ | ⟨-, f, -, h⟩
    · exact .raises h
    · exact .raises h
    · exact .succeeds h rfl
  | send =>
    rcases execSend_cases s with
      ⟨-, h⟩ | ⟨-, -, h⟩ | ⟨-, -, -, h⟩ | ⟨-, -, -, -, h⟩ | ⟨-, -, -, f, -, h⟩
    · exact .raises h
    · exact .raises h
    · exact .raises h
    · exact .raises h
    · exact .succeeds h rfl
  | encode value =>
    rcases execEncode_cases value s with ⟨-, h⟩ | ⟨-, h⟩
    · exact .raises h
    · exact .succeeds h rfl

theorem stepCommand_raisesOrSucceeds (w : CommandWord) (s : State) : RaisesOrSucceeds (stepCommand w s) s := by
  rcases stepCommand_cases w s with ⟨i, -, h⟩ | ⟨-, -, h⟩
  · exact h ▸ exec_raisesOrSucceeds i s
  · exact .raises h

/-- Settles O39: whatever is raised is raised on the state the word found. -/
theorem failuresChangeNothing : Obligations.FailuresChangeNothing := by
  intro w s
  rcases stepCommand_raisesOrSucceeds w s with h | ⟨h, hu⟩
  · exact ⟨_, ⟨_, []⟩, h, rfl, fun _ => ⟨rfl, rfl⟩⟩
  · exact ⟨_, ⟨.ok, _⟩, h, congrArg (· ++ _) hu, fun hfail => absurd rfl hfail⟩

/-! ## The order of SEND's failures (R233) -/

theorem exec_send_of_notReady {s : State} (hc : s.configured = true) (ht : s.tstate ≠ .ready) :
    exec .send s = .next (s.raise .transportUnavailable) := by
  simp [exec, execSend, hc, ht]

theorem exec_send_of_pending {s : State} (hc : s.configured = true) (ht : s.tstate = .ready) (hp : s.pending ≠ none) :
    exec .send s = .next (s.raise .busy) := by
  simp [exec, execSend, State.hasPending, Option.isSome_iff_ne_none, hc, ht, hp]

theorem exec_send_of_noFrame {s : State} (hc : s.configured = true) (ht : s.tstate = .ready) (hp : s.pending = none)
    (hf : s.frame = none) : exec .send s = .next (s.raise .invalidArgument) := by
  simp [exec, execSend, State.hasPending, hc, ht, hp, hf]

/-- Settles O44: each test is reached when those before it pass, and past either limit there is no frame. -/
theorem sendFailsInTheStatedOrder : Obligations.SendFailsInTheStatedOrder := fun _ =>
  ⟨fun hc => exec_of_unconfigured hc (by decide) (by decide),
    exec_send_of_notReady,
    exec_send_of_pending,
    fun hc ht hp hlimit => exec_send_of_noFrame hc ht hp ((frame_eq_none_iff _ _ _ _).2 hlimit)⟩

/-! ## Events (R236) -/

/-- Settles O59: three of the events write TSTATE, and `@fire` writes TXLOG and PENDING. -/
theorem eventsTouchOnlyTransportState : Obligations.EventsTouchOnlyTransportState := by
  intro e s t h
  rcases stepEvent_cases e s t h with
    ⟨-, -, rfl⟩ | ⟨-, -, rfl⟩ | ⟨-, -, -, rfl⟩ | ⟨-, -, f, -, rfl⟩
  · rfl
  · rfl
  · rfl
  · rfl

end Sys2Proof.Machine
end
